-- ==== Sys2Proof/Word.lean ====
section
/-! DEFINITION. The word types of the model (spec/00_scope.md R5 to R7, spec/10_state.md R20, R21). -/

namespace Sys2Proof

/-- A byte of the program text. -/
abbrev Byte := BitVec 8

/-- The storage of an `XLEN`-bit value. On RV32 the upper 32 bits are zero
(`Machine.clip`; DESIGN CHOICE, safe: log 3). -/
abbrev Word := BitVec 64

/-- A general register number, one of the 32 that a 5-bit field can name (10_state.md R20). -/
abbrev Reg := Fin 32

/-- The base width, RV32 or RV64 (00_scope.md R5, decision D23: open). -/
inductive Xlen where
  | rv32
  | rv64
deriving DecidableEq, Repr, Inhabited

/-- The number of bits of a general register. -/
def Xlen.bits : Xlen → Nat
  | .rv32 => 32
  | .rv64 => 64

end Sys2Proof
end

