-- ==== Sys2Proof/Syntax.lean ====
section
/-! DEFINITION. The instructions: one constructor for each row of spec/opcode_table.json
(spec/30_encoding.md R73, spec/40_csr_instructions.md R91 to R96). -/

namespace Sys2Proof

/-- The six CSR instructions. `csr` is the 12-bit CSR number (10_state.md R22) and `uimm` the 5-bit unsigned immediate
(30_encoding.md R72); `WellFormed` says they fit their fields. -/
inductive Instr where
  /-- R91: `csrrw rd, csr, rs1` -/
  | csrrw (rd : Reg) (csr : Nat) (rs1 : Reg)
  /-- R92: `csrrs rd, csr, rs1` -/
  | csrrs (rd : Reg) (csr : Nat) (rs1 : Reg)
  /-- R93: `csrrc rd, csr, rs1` -/
  | csrrc (rd : Reg) (csr : Nat) (rs1 : Reg)
  /-- R94: `csrrwi rd, csr, uimm` -/
  | csrrwi (rd : Reg) (csr : Nat) (uimm : Nat)
  /-- R95: `csrrsi rd, csr, uimm` -/
  | csrrsi (rd : Reg) (csr : Nat) (uimm : Nat)
  /-- R96: `csrrci rd, csr, uimm` -/
  | csrrci (rd : Reg) (csr : Nat) (uimm : Nat)
deriving DecidableEq, Repr, Inhabited

end Sys2Proof
end

