-- ==== Sys2Proof/WellFormed.lean ====
section
/-! DEFINITION. Which terms of `Instr` an encoding can hold: every operand fits its field
(spec/30_encoding.md R71, R72; spec/10_state.md R22). -/

namespace Sys2Proof

/-- There are 4096 CSR addresses (10_state.md R22). -/
def csrInRange (csr : Nat) : Bool := decide (csr < 4096)

/-- `uimm` is unsigned, range 0 to 31 (30_encoding.md R72). -/
def uimmInRange (uimm : Nat) : Bool := decide (uimm < 32)

/-- Every operand fits its field. Register numbers fit by their type. -/
def Instr.wf : Instr → Bool
  | .csrrw _ csr _ => csrInRange csr
  | .csrrs _ csr _ => csrInRange csr
  | .csrrc _ csr _ => csrInRange csr
  | .csrrwi _ csr uimm => csrInRange csr && uimmInRange uimm
  | .csrrsi _ csr uimm => csrInRange csr && uimmInRange uimm
  | .csrrci _ csr uimm => csrInRange csr && uimmInRange uimm

/-- The instruction is well formed. -/
abbrev WellFormed (i : Instr) : Prop := i.wf = true

end Sys2Proof
end

