-- ==== Sys2Proof/Decode.lean ====
section
/-! DEFINITION. The decoder, total on any bytes and rejecting by name, and the encoder after it
(spec/30_encoding.md R70 to R77). -/

namespace Sys2Proof

/-- Why no instruction of this hardware is read: the decoder's refusals, all safe (decision D18; log 14). -/
inductive DecodeReject where
  /-- fewer than the four bytes of a 32-bit instruction (30_encoding.md R70) -/
  | tooShort
  /-- the major opcode, bits 6:0, is not 0x73, SYSTEM (R73) -/
  | notSystemOpcode (w : BitVec 32)
  /-- SYSTEM with `funct3` 000 or 100, which are not CSR instructions (R76 (d)) -/
  | systemNotCsr (w : BitVec 32)
deriving DecidableEq, Repr

/-- Bits 31:20 (R71). -/
def csrField (w : BitVec 32) : Nat := (w.extractLsb' 20 12).toNat

/-- Bits 19:15, a register number or the immediate (R71, R72). -/
def srcField (w : BitVec 32) : BitVec 5 := w.extractLsb' 15 5

/-- Bits 14:12 (R71). -/
def funct3Field (w : BitVec 32) : BitVec 3 := w.extractLsb' 12 3

/-- Bits 11:7 (R71). -/
def rdField (w : BitVec 32) : BitVec 5 := w.extractLsb' 7 5

/-- Bits 6:0 (R71). -/
def opcodeField (w : BitVec 32) : BitVec 7 := w.extractLsb' 0 7

/-- A 5-bit field read as a plain register number (R72). -/
def regOfField (f : BitVec 5) : Reg := f.toFin

/-- A register number as the 5-bit field that names it (R72). -/
def fieldOfReg (r : Reg) : BitVec 5 := BitVec.ofNat 5 r.val

/-- The major opcode SYSTEM (R71). -/
def systemOpcode : BitVec 7 := 0x73#7

/-- One 32-bit word (R73; the `funct3` codes but 001 are PRESUMED by the spec itself: log 16). -/
def decodeWord (w : BitVec 32) : Except DecodeReject Instr :=
  if opcodeField w = systemOpcode then
    match (funct3Field w).toNat with
    | 1 => .ok (.csrrw (regOfField (rdField w)) (csrField w) (regOfField (srcField w)))
    | 2 => .ok (.csrrs (regOfField (rdField w)) (csrField w) (regOfField (srcField w)))
    | 3 => .ok (.csrrc (regOfField (rdField w)) (csrField w) (regOfField (srcField w)))
    | 5 => .ok (.csrrwi (regOfField (rdField w)) (csrField w) (srcField w).toNat)
    | 6 => .ok (.csrrsi (regOfField (rdField w)) (csrField w) (srcField w).toNat)
    | 7 => .ok (.csrrci (regOfField (rdField w)) (csrField w) (srcField w).toNat)
    | _ => .error (.systemNotCsr w)
  else .error (.notSystemOpcode w)

/-- Four bytes as a word, the first the least significant (20_memory.md R52; PRESUMED: log 13). -/
def wordOfBytes (b0 b1 b2 b3 : Byte) : BitVec 32 := b3 ++ b2 ++ b1 ++ b0

/-- A word as the four bytes that stand in memory, lowest address first (20_memory.md R52). -/
def bytesOfWord (w : BitVec 32) : List Byte :=
  [w.extractLsb' 0 8, w.extractLsb' 8 8, w.extractLsb' 16 8, w.extractLsb' 24 8]

/-- The decoder: the first instruction of a list of bytes, with the bytes after it. -/
def decode : List Byte → Except DecodeReject (Instr × List Byte)
  | b0 :: b1 :: b2 :: b3 :: rest =>
    match decodeWord (wordOfBytes b0 b1 b2 b3) with
    | .ok i => .ok (i, rest)
    | .error r => .error r
  | _ => .error .tooShort

/-- The five fields put together (R71). -/
def packFields (csr : Nat) (src : BitVec 5) (funct3 : BitVec 3) (rd : Reg) : BitVec 32 :=
  BitVec.ofNat 12 csr ++ src ++ funct3 ++ fieldOfReg rd ++ systemOpcode

/-- The encoder: the word of a well-formed instruction, from the map of R73. -/
def encode : Instr → BitVec 32
  | .csrrw rd csr rs1 => packFields csr (fieldOfReg rs1) 0b001#3 rd
  | .csrrs rd csr rs1 => packFields csr (fieldOfReg rs1) 0b010#3 rd
  | .csrrc rd csr rs1 => packFields csr (fieldOfReg rs1) 0b011#3 rd
  | .csrrwi rd csr uimm => packFields csr (BitVec.ofNat 5 uimm) 0b101#3 rd
  | .csrrsi rd csr uimm => packFields csr (BitVec.ofNat 5 uimm) 0b110#3 rd
  | .csrrci rd csr uimm => packFields csr (BitVec.ofNat 5 uimm) 0b111#3 rd

/-- The four bytes of an instruction whose low `nbits` bits are those of `w` and whose other bits are zero. -/
def tableBytes (nbits w : Nat) : List Byte := bytesOfWord (BitVec.ofNat 32 (w % 2 ^ nbits))

/-- What the decoder reads from a word numbered as spec/opcode_table.json numbers it. -/
def decodeTableWord (nbits w : Nat) : Option Instr :=
  match decode (tableBytes nbits w) with
  | .ok (i, _) => some i
  | .error _ => none

end Sys2Proof
end

