-- ==== Sys2Proof/Config.lean ====
section
/-! DEFINITION. What an implementation fixes (the parameters of spec/00_scope.md R5) and the free values that the
environment draws (spec/41_seed_polling.md R121). -/

namespace Sys2Proof

/-- `ES_KIND`: which requirement set of 42_entropy_requirements.md R141 the entropy source claims. No executable rule
depends on it (R148, decision D20; log 30). -/
inductive EsKind where
  | physical90B
  | physicalPTG2
  | virtualSource
deriving DecidableEq, Repr, Inhabited

/-- What a raised exception does (60_exceptions.md R185): `terminal` ends the run, as in the hardware alone (decision
D1); `privileged` performs the trap entry that R185 outlines for a composed model (PRESUMED, unsafe: log 4, 5). -/
inductive TrapMode where
  | terminal
  | privileged
deriving DecidableEq, Repr, Inhabited

/-- The parameters of 00_scope.md R5, fixed for one machine; no step changes them. They are a field of `State`, so a
statement about every state is a statement about every implementation (DESIGN CHOICE, safe: log 2). The two fields
named `…Implemented` and the two named `…ResetBit` say what the implementation asks for; `Params.sseedWritable` and
its fellows in Machine/Platform.lean apply the hardwiring rule of 10_state.md R35. -/
structure Params where
  /-- `XLEN` -/
  xlen : Xlen
  /-- `ZKR`: the `seed` CSR exists -/
  zkr : Bool
  /-- `HAS_S` -/
  hasS : Bool
  /-- `HAS_U` -/
  hasU : Bool
  /-- `HAS_H` -/
  hasH : Bool
  /-- the implementation offers `sseed` as a writable bit -/
  sseedImplemented : Bool
  /-- the implementation offers `useed` as a writable bit -/
  useedImplemented : Bool
  /-- the reset value asked for `sseed` -/
  sseedResetBit : Bool
  /-- the reset value asked for `useed` -/
  useedResetBit : Bool
  /-- `MSECCFG_ADDR` -/
  mseccfgAddr : Nat
  /-- `ES_KIND` -/
  esKind : EsKind
  /-- `ES_SHARED` -/
  esShared : Bool
  /-- `ILLEGAL_INSTRUCTION_CODE` -/
  illegalInstructionCode : Nat
  /-- `VIRTUAL_INSTRUCTION_CODE` -/
  virtualInstructionCode : Nat
  /-- `TVAL_HOLDS_INSTR` -/
  tvalHoldsInstr : Bool
  /-- `RESET_VECTOR` -/
  resetVector : Word
  /-- `PROGRAM_BASE`: where a test program's first word stands; no rule reads it (00_scope.md R5, decision D13) -/
  programBase : Word
  /-- what a raised exception does: see `TrapMode` -/
  trapMode : TrapMode
deriving DecidableEq, Repr, Inhabited

/-- What the environment draws for one poll (41_seed_polling.md R110): `SEED_RSVD`, `SEED_CUSTOM`, the `choose` of
the wipe, and the word that is delivered next if the source stays in `ES16`. -/
structure PollDraw where
  rsvd : BitVec 6
  custom : BitVec 8
  toWait : Bool
  fresh : BitVec 16
deriving DecidableEq, Repr, Inhabited

/-- One transition that `EsStep` may be asked to make (41_seed_polling.md R118); `toEs16` carries its `draw_16()`. -/
inductive EsTransition where
  | toBist
  | toWait
  | toEs16 (word : BitVec 16)
  | toDead
deriving DecidableEq, Repr, Inhabited

/-- What can happen to the entropy source between two instructions of this hart: a transition of its own, or, where
`ES_SHARED` is true, a poll made by another hart (60_exceptions.md R191; log 10). -/
inductive EnvEvent where
  | es (t : EsTransition)
  | otherHartPoll (d : PollDraw)
deriving DecidableEq, Repr, Inhabited

/-- The draws of the `n`-th poll of the run: a free value, no body (R121 (a) to (c); 93 I1 to I4; DESIGN CHOICE,
safe: log 8). -/
opaque Config.pollDraw : Nat → PollDraw

/-- What happens to the entropy source in its `n`-th turn of the run: a free value, no body
(R118, R121 (d); 93 I6; DESIGN CHOICE, safe: log 9). -/
opaque Config.esEvents : Nat → List EnvEvent

end Sys2Proof
end

