-- ==== Sys2Proof/Machine/Platform.lean ====
section
/-! DEFINITION. What the parameters say about the hardware: the hardwiring rules (spec/10_state.md R35, R36), the reset
values of the two access bits (R39), the consistency of a parameter record (spec/00_scope.md R5), and the record that
`State.reset` uses. -/

namespace Sys2Proof

/-- `SSEED_WRITABLE` with the hardwiring of 10_state.md R35 and R36 applied: no S mode or no `Zkr` makes `sseed` a
read-only zero (DEDUCED, safe: log 23). -/
def Params.sseedWritable (p : Params) : Bool := p.zkr && p.hasS && p.sseedImplemented

/-- `USEED_WRITABLE`, in the same way (R35, R36; log 23). -/
def Params.useedWritable (p : Params) : Bool := p.zkr && p.hasU && p.useedImplemented

/-- `SSEED_RESET`, zero where the bit is hardwired (R39). -/
def Params.sseedReset (p : Params) : Bool := p.sseedWritable && p.sseedResetBit

/-- `USEED_RESET`, zero where the bit is hardwired (R39). -/
def Params.useedReset (p : Params) : Bool := p.useedWritable && p.useedResetBit

/-- The CSR number of `seed` (10_state.md R24). -/
def seedAddr : Nat := 0x015

/-- The consistency conditions of 00_scope.md R5 and decision D24: H needs S and U; `mseccfg` has a CSR number of its
own; the reset vector and the program base are `XLEN`-bit multiples of 4. -/
def Params.wf (p : Params) : Bool :=
  (!p.hasH || (p.hasS && p.hasU))
    && decide (p.mseccfgAddr < 4096) && decide (p.mseccfgAddr ≠ seedAddr)
    && decide (p.resetVector.toNat < 2 ^ p.xlen.bits) && decide (p.resetVector.toNat % 4 = 0)
    && decide (p.programBase.toNat < 2 ^ p.xlen.bits) && decide (p.programBase.toNat % 4 = 0)

/-- The parameters of the machine that `State.reset` shows: the defaults of 00_scope.md R5 where the table gives one
(`ZKR` true, resets 0, `MSECCFG_ADDR` 0x747, codes 2 and 22, `ES_SHARED` false), and for each row marked OPEN one
choice (DESIGN CHOICE, unsafe for a claim about `State.reset` itself: log 2). -/
def Machine.standardParams : Params where
  xlen := .rv32
  zkr := true
  hasS := true
  hasU := true
  hasH := true
  sseedImplemented := true
  useedImplemented := true
  sseedResetBit := false
  useedResetBit := false
  mseccfgAddr := 0x747
  esKind := .physical90B
  esShared := false
  illegalInstructionCode := 2
  virtualInstructionCode := 22
  tvalHoldsInstr := true
  resetVector := 0
  programBase := 0
  trapMode := .terminal

end Sys2Proof
end

