-- ==== Sys2Proof/Machine/State.lean ====
section
/-! DEFINITION. The state of the machine as plain data, the reasons a step can stop, and the state after reset
(spec/10_state.md, spec/60_exceptions.md R185, spec/70_reset_and_hazards.md R210, R215). -/

namespace Sys2Proof.Machine

/-- The privilege mode `priv` (10_state.md R23). -/
inductive Priv where
  | m
  | s
  | u
deriving DecidableEq, Repr, Inhabited

/-- `OPST`, the operational status (10_state.md R26). -/
inductive Opst where
  | bist
  | wait
  | es16
  | dead
deriving DecidableEq, Repr, Inhabited

/-- The hidden state `es` of the entropy source (10_state.md R27). -/
structure Es where
  opst : Opst
  entropy : BitVec 16
  bistLatched : Bool
deriving DecidableEq, Repr, Inhabited

/-- The trap registers of one level (M, HS or VS) that 60_exceptions.md R185 outlines: `epc`, `cause`, `tval`, `tvec`,
and of its status register the previous privilege `pp` (`MPP` or `SPP`), the previous interrupt enable `pie` (`MPIE`
or `SPIE`) and the current one `ie` (`MIE` or `SIE`) (PRESUMED: log 5). -/
structure TrapBank where
  epc : Word
  cause : Word
  tval : Word
  tvec : Word
  pp : Priv
  pie : Bool
  ie : Bool
deriving DecidableEq, Repr, Inhabited

/-- All the registers of the trap entry that 60_exceptions.md R185 outlines; used only where `trapMode` is
`privileged` (log 5). -/
structure TrapRegs where
  m : TrapBank
  s : TrapBank
  vs : TrapBank
  mpv : Bool
  spv : Bool
  medeleg : Word
  hedeleg : Word
deriving DecidableEq, Repr, Inhabited

/-- The program text: listed bytes by address (10_state.md R37, 20_memory.md R50, R52; log 11). -/
abbrev Memory := List Host.Cell

/-- The model's own fields: where the environment's draws are read (log 8, 9). Poll `polls` takes the head of
`pollScript`, or the free value `Config.pollDraw polls` where the script is empty; turn `ticks` takes the head of
`esScript`, or `Config.esEvents ticks`. -/
structure Env where
  polls : Nat
  pollScript : List PollDraw
  ticks : Nat
  esScript : List (List EnvEvent)
deriving DecidableEq, Repr, Inhabited

/-- Everything the spec gives the machine (10_state.md; INVENTORY.md, State). -/
structure State where
  /-- the implementation's parameters (00_scope.md R5; log 2) -/
  params : Params
  /-- `x0` to `x31` (R20) -/
  regs : Vector Word 32
  /-- the program counter (R21) -/
  pc : Word
  /-- the privilege mode (R23) -/
  priv : Priv
  /-- the virtualisation bit `V` (R23) -/
  virt : Bool
  /-- `mseccfg.sseed` (R32) -/
  sseed : Bool
  /-- `mseccfg.useed` (R33) -/
  useed : Bool
  /-- the entropy source (R27) -/
  es : Es
  /-- the trap registers of a composed model (60_exceptions.md R185) -/
  trap : TrapRegs
  /-- the program text (R37) -/
  mem : Memory
  /-- the environment's draws (the model's own; 41_seed_polling.md R121) -/
  env : Env
deriving DecidableEq, Repr, Inhabited

/-- The two exceptions of this hardware (60_exceptions.md R180, R181). -/
inductive Exception where
  | illegalInstruction
  | virtualInstruction
deriving DecidableEq, Repr, Inhabited

/-- How a step can stop with a fault. -/
inductive Fault where
  /-- `Trapped(E, pc, instr, priv, V)`: an instruction raised an exception in the hardware alone, where that is
  terminal (60_exceptions.md R185, decision D1). Raised by `takeException`. Safe: what a handler does cannot be
  claimed (log 4). -/
  | trapped (e : Exception) (pc : Word) (instr : BitVec 32) (priv : Priv) (virt : Bool)
  /-- `Completed`: `pc` is the address just past the last word of the program text (70_reset_and_hazards.md R215).
  Raised by `fetch`. Safe: nothing is said of what a hart does there (log 12). -/
  | completed (pc : Word)
  /-- The fetch needs a byte that is no part of the program text. Raised by `fetch`. Safe (log 11). -/
  | fetchUnwritten (addr : Nat)
  /-- The fetch needs an address that does not exist, at or above 2^XLEN. Raised by `fetch`. Safe (log 11). -/
  | fetchOutsideSpace (addr : Nat)
deriving DecidableEq, Repr

/-- Why the model gives a step no meaning. -/
inductive Refusal where
  /-- An instruction of the table without a meaning yet. No arm of `exec` uses it. Safe. -/
  | notModelled (mnemonic : String)
  /-- `pc` is not a multiple of 4 (20_memory.md R53, decision D13). Raised by `fetch`. Safe (log 13). -/
  | pcMisaligned (pc : Word)
  /-- The CSR number is neither `seed` nor `mseccfg` (40_csr_instructions.md R90, decision D18). Raised by the six
  meanings through `execCSR`. Safe (log 14). -/
  | csrOutsideSpec (csr : Nat)
  /-- The word is no instruction of this hardware (30_encoding.md R76 (d), decision D18). Raised by `step`. Safe
  (log 14). -/
  | outsideSpec (why : DecodeReject)
deriving DecidableEq, Repr

/-- The entropy source right after reset (10_state.md R39, decision D4; log 20). -/
def Es.reset : Es where
  opst := .bist
  entropy := 0
  bistLatched := false

/-- One level's trap registers after reset: the spec gives no values (DESIGN CHOICE, unsafe: log 6). -/
def TrapBank.reset (pp : Priv) : TrapBank where
  epc := 0
  cause := 0
  tval := 0
  tvec := 0
  pp := pp
  pie := false
  ie := false

/-- The trap registers after reset (DESIGN CHOICE, unsafe: log 6). -/
def TrapRegs.reset : TrapRegs where
  m := .reset .m
  s := .reset .s
  vs := .reset .s
  mpv := false
  spv := false
  medeleg := 0
  hedeleg := 0

/-- No draw made, nothing scripted (DESIGN CHOICE: log 8, 9). -/
def Env.reset : Env where
  polls := 0
  pollScript := []
  ticks := 0
  esScript := []

/-- The machine with parameters `p` right after reset (10_state.md R39, 70_reset_and_hazards.md R210). `x1` to `x31`
are zero (DESIGN CHOICE, unsafe: log 1). -/
def State.resetFor (p : Params) : State where
  params := p
  regs := Vector.replicate 32 0
  pc := p.resetVector
  priv := .m
  virt := false
  sseed := p.sseedReset
  useed := p.useedReset
  es := .reset
  trap := .reset
  mem := []
  env := .reset

/-- The machine right after reset, for the parameters of `standardParams` (log 2). -/
def State.reset : State := State.resetFor standardParams

end Sys2Proof.Machine
end

