-- ==== Sys2Proof/Machine/Flags.lean ====
section
/-! DEFINITION. This hardware has no status flags, condition codes or predicates, and none of the six instructions
writes one (spec/10_state.md R37). The one status a program tests is `OPST`, in the word a poll returns: its codes
and how software decodes a word (spec/10_state.md R25, R26; spec/41_seed_polling.md R124). -/

namespace Sys2Proof.Machine

/-- The encodings of `OPST` (10_state.md R26). -/
def opstCode : Opst → BitVec 2
  | .bist => 0b00#2
  | .wait => 0b01#2
  | .es16 => 0b10#2
  | .dead => 0b11#2

/-- `ES16` is the one success status (10_state.md R26). -/
def isSuccess (o : Opst) : Bool := decide (o = .es16)

/-- The status of a returned word, by bits 31:30 alone (41_seed_polling.md R124). -/
def statusOfWord (v : BitVec 32) : Opst :=
  match (v.extractLsb' 30 2).toNat with
  | 0 => .bist
  | 1 => .wait
  | 2 => .es16
  | _ => .dead

/-- The entropy of a returned word: bits 15:0 where the status is `ES16`, else none (41_seed_polling.md R124). -/
def entropyOfWord (v : BitVec 32) : Option (BitVec 16) :=
  if isSuccess (statusOfWord v) then some (v.extractLsb' 0 16) else none

end Sys2Proof.Machine
end

