-- ==== Sys2Proof/Machine/Bits.lean ====
section
/-! DEFINITION. `XLEN`-bit values in 64-bit words (spec/00_scope.md R6, R7; spec/40_csr_instructions.md R97; log 3). -/

namespace Sys2Proof.Machine

/-- The low `XLEN` bits of a word, zeros above: arithmetic modulo 2^XLEN (10_state.md R21). -/
def clip (x : Xlen) (v : Word) : Word :=
  match x with
  | .rv32 => (v.setWidth 32).setWidth 64
  | .rv64 => v

/-- `zext_XLEN` of a 32-bit word: zeros above bit 31, never the sign (41_seed_polling.md R113). -/
def zext32 (w : BitVec 32) : Word := w.setWidth 64

/-- `zext_XLEN` of the immediate (30_encoding.md R72). -/
def zextImm (uimm : Nat) : Word := BitVec.ofNat 64 uimm

end Sys2Proof.Machine
end

