-- ==== Sys2Proof/Machine/Ops.lean ====
section
/-! DEFINITION. The named operations over registers, memory and the program counter, taking an exception and returning
from one (spec/00_scope.md R7, spec/10_state.md R20, R21, spec/60_exceptions.md R182, R183, R185, R186). -/

namespace Sys2Proof.Machine

/-! Registers and the program counter. -/

/-- `x[r]`: `x0` reads as zero (10_state.md R20). -/
def readReg (s : State) (r : Reg) : Word :=
  if r = 0 then 0 else s.regs[r]

/-- `x[r] <- v`, an `XLEN`-bit register: `x0` ignores writes (10_state.md R20). -/
def writeReg (r : Reg) (v : Word) (s : State) : State :=
  if r = 0 then s else { s with regs := s.regs.set r (clip s.params.xlen v) }

/-- The `pc` of an instruction that completes: `pc + 4` modulo 2^XLEN (10_state.md R21, decision D12; log 26). -/
def nextPc (s : State) : Word := clip s.params.xlen (s.pc + 4)

/-- `pc <- pc + 4`. -/
def advancePc (s : State) : State := { s with pc := nextPc s }

/-! Memory: the program text. Addresses run from 0 to 2^XLEN - 1. -/

/-- What an unlisted address reads as: no value, so that fetching it stops (DESIGN CHOICE, safe: log 11). -/
def unlistedByte (_addr : Nat) : Option Byte := none

/-- One byte of memory. -/
def readByte (m : Memory) (addr : Nat) : Option Byte :=
  match m.lookup addr with
  | some b => some b
  | none => unlistedByte addr

/-- One byte stored, keeping the addresses strictly rising. -/
def writeByte (addr : Nat) (b : Byte) : Memory → Memory
  | [] => [(addr, b)]
  | (a, c) :: rest =>
    if addr < a then (addr, b) :: (a, c) :: rest
    else if addr = a then (addr, b) :: rest
    else (a, c) :: writeByte addr b rest

/-- The canonical form: addresses strictly rising, no entry that equals what its address reads as unlisted. -/
abbrev Memory.wf (m : Memory) : Prop :=
  m.Pairwise (fun x y => x.1 < y.1) ∧ ∀ c ∈ m, unlistedByte c.1 ≠ some c.2

/-- `MemRead(addr, n)` as `n` bytes from `addr` upward; none where a byte has no value (00_scope.md R7). -/
def readBytes (m : Memory) (addr : Nat) : Nat → Option (List Byte)
  | 0 => some []
  | n + 1 =>
    match readByte m addr, readBytes m (addr + 1) n with
    | some b, some bs => some (b :: bs)
    | _, _ => none

/-- `MemWrite(addr, n, v)` with the `n` bytes of `v` in rising address order (00_scope.md R7). No rule in scope calls
it (20_memory.md R50); it stands for the load of a program (log 12). -/
def writeBytes (addr : Nat) : List Byte → Memory → Memory
  | [], m => m
  | b :: bs, m => writeBytes (addr + 1) bs (writeByte addr b m)

/-- The address just past the program text, if there is a text (70_reset_and_hazards.md R215). -/
def textEnd (m : Memory) : Option Nat := m.getLast?.map (fun c => c.1 + 1)

/-! Exceptions. -/

/-- The exception's cause code (60_exceptions.md R182, decision D2). -/
def causeCode (p : Params) : Exception → Nat
  | .illegalInstruction => p.illegalInstructionCode
  | .virtualInstruction => p.virtualInstructionCode

/-- The recorded trap value: the instruction word zero-extended, or zero, by `TVAL_HOLDS_INSTR` (60_exceptions.md
R182). -/
def trapValue (p : Params) (instr : BitVec 32) : Word :=
  if p.tvalHoldsInstr then zext32 instr else 0

/-- The levels that can take a trap (60_exceptions.md R185). -/
inductive TrapLevel where
  | m
  | s
  | vs
deriving DecidableEq, Repr, Inhabited

/-- The mode that takes the trap (60_exceptions.md R185 outline): M, unless `medeleg` delegates to S/HS; from a virtual
mode `hedeleg` may pass an illegal instruction exception on to VS. A trap from M mode stays in M mode (PRESUMED,
unsafe: log 5). -/
def trapLevel (e : Exception) (s : State) : TrapLevel :=
  if s.priv = .m ∨ s.params.hasS = false ∨ s.trap.medeleg.getLsbD (causeCode s.params e) = false then .m
  else if s.virt = true ∧ e = .illegalInstruction ∧ s.trap.hedeleg.getLsbD (causeCode s.params e) = true then .vs
  else .s

/-- The `BASE` of a `tvec` register, its two low bits being the mode field (60_exceptions.md R185; PRESUMED, unsafe:
log 5). -/
def tvecBase (x : Xlen) (tvec : Word) : Word := clip x (tvec &&& ~~~3#64)

/-- What the taking level's registers become (60_exceptions.md R185): `epc`, `cause`, `tval`, the previous privilege
and interrupt enable are saved, the current interrupt enable is cleared. -/
def saveTrap (e : Exception) (instr : BitVec 32) (s : State) (b : TrapBank) : TrapBank :=
  { b with
    epc := s.pc
    cause := clip s.params.xlen (BitVec.ofNat 64 (causeCode s.params e))
    tval := trapValue s.params instr
    pp := s.priv
    pie := b.ie
    ie := false }

/-- Trap entry of a composed model, as 60_exceptions.md R185 outlines it (PRESUMED, unsafe: log 5). Nothing else
changes (R183). -/
def enterTrap (e : Exception) (instr : BitVec 32) (s : State) : State :=
  match trapLevel e s with
  | .m =>
    { s with
      trap := { s.trap with m := saveTrap e instr s s.trap.m, mpv := s.virt }
      priv := .m
      virt := false
      pc := tvecBase s.params.xlen s.trap.m.tvec }
  | .s =>
    { s with
      trap := { s.trap with s := saveTrap e instr s s.trap.s, spv := s.virt }
      priv := .s
      virt := false
      pc := tvecBase s.params.xlen s.trap.s.tvec }
  | .vs =>
    { s with
      trap := { s.trap with vs := saveTrap e instr s s.trap.vs }
      priv := .s
      pc := tvecBase s.params.xlen s.trap.vs.tvec }

/-- TAKING AN EXCEPTION, the one shared operation (60_exceptions.md R183, R185): in the hardware alone the terminal
outcome `Trapped(E, pc, instr, priv, V)`, in a composed model the trap entry. -/
def takeException (e : Exception) (instr : BitVec 32) (s : State) : Host.Outcome State Fault Refusal :=
  match s.params.trapMode with
  | .terminal => .fault (.trapped e s.pc instr s.priv s.virt)
  | .privileged => .next (enterTrap e instr s)

/-- RETURNING FROM AN EXCEPTION in a composed model (60_exceptions.md R186): privilege and `V` restored from the saved
fields, the interrupt enable from the saved one, `pc` from `epc`. No instruction of the table reaches it (PRESUMED,
unsafe: log 7). -/
def returnFromTrap (level : TrapLevel) (s : State) : State :=
  match level with
  | .m =>
    { s with
      trap := { s.trap with m := { s.trap.m with ie := s.trap.m.pie } }
      priv := s.trap.m.pp
      virt := s.trap.mpv
      pc := s.trap.m.epc }
  | .s =>
    { s with
      trap := { s.trap with s := { s.trap.s with ie := s.trap.s.pie } }
      priv := s.trap.s.pp
      virt := s.trap.spv
      pc := s.trap.s.epc }
  | .vs =>
    { s with
      trap := { s.trap with vs := { s.trap.vs with ie := s.trap.vs.pie } }
      priv := s.trap.vs.pp
      pc := s.trap.vs.epc }

end Sys2Proof.Machine
end

