-- ==== Sys2Proof/Machine/EntropySource.lean ====
section
/-! DEFINITION. The entropy source: who may poll it, what a poll returns and does, and its own step
(spec/41_seed_polling.md R110 to R122, spec/43_access_control.md R160 to R170). -/

namespace Sys2Proof.Machine

/-! Access control. -/

/-- The results of `SeedAccess` (43_access_control.md R160). -/
inductive Access where
  | ok
  | illegal
  | virtual
deriving DecidableEq, Repr, Inhabited

/-- `SeedAccess` (43_access_control.md R160): the read-only test first (R161), then the virtual modes (R170), then the
mode and its bit (R162). -/
def seedAccess (priv : Priv) (virt sseed useed write : Bool) : Access :=
  if write = false then .illegal
  else if virt then (if sseed then .virtual else .illegal)
  else
    match priv with
    | .m => .ok
    | .s => if sseed then .ok else .illegal
    | .u => if useed then .ok else .illegal

/-- The access check of this machine: without `Zkr` every access is illegal (43_access_control.md R167, decision D19;
log 22). -/
def seedCheck (s : State) (write : Bool) : Access :=
  if s.params.zkr then seedAccess s.priv s.virt s.sseed s.useed write else .illegal

/-! The poll. -/

/-- The draws of this hart's next poll (41_seed_polling.md R110, R121; log 8). -/
def pollDraw (s : State) : PollDraw :=
  match s.env.pollScript with
  | d :: _ => d
  | [] => Config.pollDraw s.env.polls

/-- The draws of a poll are used once. -/
def consumeDraw (e : Env) : Env := { e with polls := e.polls + 1, pollScript := e.pollScript.drop 1 }

/-- The word a poll returns (41_seed_polling.md R110): status, reserved and custom draws, and the entropy in `ES16`,
zero in every other status (10_state.md R28). -/
def seedWord (es : Es) (d : PollDraw) : BitVec 32 :=
  opstCode es.opst ++ d.rsvd ++ d.custom ++ (if isSuccess es.opst then es.entropy else 0#16)

/-- What a poll does to the entropy source (41_seed_polling.md R110, R111, R119): it clears the latch in `BIST`, wipes
the word in `ES16`, and changes nothing in `WAIT` and `DEAD`. -/
def pollEs (es : Es) (d : PollDraw) : Es :=
  match es.opst with
  | .bist => { es with bistLatched := false }
  | .wait => es
  | .es16 =>
    if d.toWait then { es with opst := .wait, entropy := 0 }
    else { es with opst := .es16, entropy := d.fresh }
  | .dead => es

/-- `SeedPoll()` as one indivisible action (41_seed_polling.md R110, 20_memory.md R54): the word and the state. -/
def seedPoll (s : State) : BitVec 32 × State :=
  (seedWord s.es (pollDraw s), { s with es := pollEs s.es (pollDraw s), env := consumeDraw s.env })

/-! The entropy source's own step. -/

/-- `EsStep` (41_seed_polling.md R118, R119): the state after a transition, or none where the table has no such
transition. `DEAD` is absorbing (R117, 90_conflicts.md C1; log 21). -/
def esStep (t : EsTransition) (es : Es) : Option Es :=
  match es.opst, t with
  | .bist, .toWait => if es.bistLatched then none else some { es with opst := .wait }
  | .bist, .toEs16 w => if es.bistLatched then none else some { es with opst := .es16, entropy := w }
  | .bist, .toDead => some { es with opst := .dead }
  | .bist, .toBist => none
  | .wait, .toEs16 w => some { es with opst := .es16, entropy := w }
  | .wait, .toBist => some { es with opst := .bist, bistLatched := true }
  | .wait, .toDead => some { es with opst := .dead }
  | .wait, .toWait => none
  | .es16, .toBist => some { es with opst := .bist, entropy := 0, bistLatched := true }
  | .es16, .toDead => some { es with opst := .dead, entropy := 0 }
  | .es16, .toWait => none
  | .es16, .toEs16 _ => none
  | .dead, _ => none

/-- One event between two instructions. A transition that is not admitted does not happen; another hart's poll reaches
this source only where it is shared (60_exceptions.md R191; log 9, 10). -/
def envEvent (p : Params) (e : EnvEvent) (es : Es) : Es :=
  match e with
  | .es t => (esStep t es).getD es
  | .otherHartPoll d => if p.esShared then pollEs es d else es

/-- Any finite number of events, in order (41_seed_polling.md R118). -/
def runEvents (p : Params) : List EnvEvent → Es → Es
  | [], es => es
  | e :: rest, es => runEvents p rest (envEvent p e es)

/-- The events of the source's next turn (41_seed_polling.md R121 (d); log 9). -/
def nextEvents (s : State) : List EnvEvent :=
  match s.env.esScript with
  | l :: _ => l
  | [] => Config.esEvents s.env.ticks

/-- The events of a turn are used once. -/
def consumeEvents (e : Env) : Env := { e with ticks := e.ticks + 1, esScript := e.esScript.drop 1 }

/-- A turn of the entropy source, before an instruction or after it: it touches `es` only (41_seed_polling.md R118),
beside the model's own count. -/
def esPhase (s : State) : State :=
  { s with es := runEvents s.params (nextEvents s) s.es, env := consumeEvents s.env }

/-- The source's turn after an instruction, also after the last one of a run (41_seed_polling.md R118; log 9). An
outcome without a next state is left as it is; `stateAfter` has the turn that follows it. -/
def closingTurn (o : Host.Outcome State Fault Refusal) : Host.Outcome State Fault Refusal :=
  match o with
  | .next t => .next (esPhase t)
  | .fault r => .fault r
  | .refused r => .refused r

end Sys2Proof.Machine
end

