-- ==== Sys2Proof/Machine/Mseccfg.lean ====
section
/-! DEFINITION. The `mseccfg` CSR: the bits `sseed` (9) and `useed` (8); every other bit reads zero and ignores writes
(spec/10_state.md R31 to R36, spec/43_access_control.md R163 to R165; log 15). -/

namespace Sys2Proof.Machine

/-- `MseccfgRead()` (43_access_control.md R163). -/
def mseccfgRead (s : State) : Word :=
  (if s.sseed then 0x200#64 else 0) ||| (if s.useed then 0x100#64 else 0)

/-- `MseccfgWrite(v)` (43_access_control.md R164): each bit is taken from `v` where it is writable and stays 0
elsewhere. -/
def mseccfgWrite (v : Word) (s : State) : State :=
  { s with
    sseed := s.params.sseedWritable && v.getLsbD 9
    useed := s.params.useedWritable && v.getLsbD 8 }

end Sys2Proof.Machine
end

