-- ==== Sys2Proof/Machine/Operands.lean ====
section
/-! DEFINITION. The operand forms of the six instructions (spec/30_encoding.md R72, R75;
spec/40_csr_instructions.md R90). -/

namespace Sys2Proof.Machine

/-- `op` of `ExecCSR` without its immediate bit: what the instruction does to a CSR (40_csr_instructions.md R90). -/
inductive CsrOp where
  /-- CSRRW, CSRRWI -/
  | replace
  /-- CSRRS, CSRRSI -/
  | setBits
  /-- CSRRC, CSRRCI -/
  | clearBits
deriving DecidableEq, Repr, Inhabited

/-- The field at bits 19:15: a source register number or the immediate (30_encoding.md R72). -/
inductive CsrSrc where
  | reg (rs1 : Reg)
  | imm (uimm : Nat)
deriving DecidableEq, Repr, Inhabited

/-- The field at bits 19:15 is not zero. A register's value plays no part (30_encoding.md R75). -/
def fieldNonzero : CsrSrc → Bool
  | .reg rs1 => decide (rs1 ≠ 0)
  | .imm uimm => decide (uimm ≠ 0)

/-- `isWrite`: a read-write instruction, decided by the encoding alone (30_encoding.md R75). -/
def isWrite (op : CsrOp) (src : CsrSrc) : Bool :=
  match op with
  | .replace => true
  | .setBits => fieldNonzero src
  | .clearBits => fieldNonzero src

/-- `src()`: the write operand (40_csr_instructions.md R90). -/
def srcValue (s : State) : CsrSrc → Word
  | .reg rs1 => readReg s rs1
  | .imm uimm => zextImm uimm

/-- `new`: replace, bitwise OR, bitwise AND with the complement (40_csr_instructions.md R90, R97; PRESUMED by the spec
itself: log 17). -/
def newValue (op : CsrOp) (old src : Word) : Word :=
  match op with
  | .replace => src
  | .setBits => old ||| src
  | .clearBits => old &&& ~~~src

/-! The operands of an instruction as `ExecCSR` names them (40_csr_instructions.md R90). -/

/-- `op` of an instruction. -/
def opOf : Instr → CsrOp
  | .csrrw _ _ _ => .replace
  | .csrrs _ _ _ => .setBits
  | .csrrc _ _ _ => .clearBits
  | .csrrwi _ _ _ => .replace
  | .csrrsi _ _ _ => .setBits
  | .csrrci _ _ _ => .clearBits

/-- `f` of an instruction: bits 19:15. -/
def srcOf : Instr → CsrSrc
  | .csrrw _ _ rs1 => .reg rs1
  | .csrrs _ _ rs1 => .reg rs1
  | .csrrc _ _ rs1 => .reg rs1
  | .csrrwi _ _ uimm => .imm uimm
  | .csrrsi _ _ uimm => .imm uimm
  | .csrrci _ _ uimm => .imm uimm

/-- `rd` of an instruction. -/
def rdOf : Instr → Reg
  | .csrrw rd _ _ => rd
  | .csrrs rd _ _ => rd
  | .csrrc rd _ _ => rd
  | .csrrwi rd _ _ => rd
  | .csrrsi rd _ _ => rd
  | .csrrci rd _ _ => rd

/-- `csr` of an instruction. -/
def csrOf : Instr → Nat
  | .csrrw _ csr _ => csr
  | .csrrs _ csr _ => csr
  | .csrrc _ csr _ => csr
  | .csrrwi _ csr _ => csr
  | .csrrsi _ csr _ => csr
  | .csrrci _ csr _ => csr

/-- The instruction is a read-write instruction (30_encoding.md R75). -/
def isReadWrite (i : Instr) : Bool := isWrite (opOf i) (srcOf i)

end Sys2Proof.Machine
end

