-- ==== Sys2Proof/Machine/CsrAccess.lean ====
section
/-! DEFINITION. The six CSR instructions (spec/40_csr_instructions.md R90 to R96). -/

namespace Sys2Proof.Machine

/-- A permitted poll with its destination written and `pc` advanced (40_csr_instructions.md R90, R91 (c)). The source
operand is not evaluated (41_seed_polling.md R112). -/
def completePoll (rd : Reg) (s : State) : State :=
  advancePc (writeReg rd (zext32 (seedPoll s).1) (seedPoll s).2)

/-- A permitted access to `mseccfg`: the old value is read, the new one written by a read-write form from operands read
before any write, `rd` receives the old value (40_csr_instructions.md R90; log 17). -/
def completeMseccfg (op : CsrOp) (rd : Reg) (src : CsrSrc) (s : State) : State :=
  advancePc (writeReg rd (mseccfgRead s)
    (if isWrite op src then mseccfgWrite (newValue op (mseccfgRead s) (srcValue s src)) s else s))

/-- `ExecCSR` (40_csr_instructions.md R90): the access check, then the access with its side effects, then `rd`, then
`pc`. `instr` is the instruction word that a raised exception hands over (00_scope.md R7; log 28). -/
def execCSR (op : CsrOp) (rd : Reg) (csr : Nat) (src : CsrSrc) (instr : BitVec 32) (s : State) :
    Host.Outcome State Fault Refusal :=
  if csr = seedAddr then
    match seedCheck s (isWrite op src) with
    | .illegal => takeException .illegalInstruction instr s
    | .virtual => takeException .virtualInstruction instr s
    | .ok => .next (completePoll rd s)
  else if csr = s.params.mseccfgAddr then
    if s.priv = .m then .next (completeMseccfg op rd src s)
    else takeException .illegalInstruction instr s
  else .refused (.csrOutsideSpec csr)

/-- CSRRW (R91). -/
def execCsrrw (rd : Reg) (csr : Nat) (rs1 : Reg) (s : State) : Host.Outcome State Fault Refusal :=
  execCSR .replace rd csr (.reg rs1) (encode (.csrrw rd csr rs1)) s

/-- CSRRS (R92). -/
def execCsrrs (rd : Reg) (csr : Nat) (rs1 : Reg) (s : State) : Host.Outcome State Fault Refusal :=
  execCSR .setBits rd csr (.reg rs1) (encode (.csrrs rd csr rs1)) s

/-- CSRRC (R93). -/
def execCsrrc (rd : Reg) (csr : Nat) (rs1 : Reg) (s : State) : Host.Outcome State Fault Refusal :=
  execCSR .clearBits rd csr (.reg rs1) (encode (.csrrc rd csr rs1)) s

/-- CSRRWI (R94). -/
def execCsrrwi (rd : Reg) (csr : Nat) (uimm : Nat) (s : State) : Host.Outcome State Fault Refusal :=
  execCSR .replace rd csr (.imm uimm) (encode (.csrrwi rd csr uimm)) s

/-- CSRRSI (R95). -/
def execCsrrsi (rd : Reg) (csr : Nat) (uimm : Nat) (s : State) : Host.Outcome State Fault Refusal :=
  execCSR .setBits rd csr (.imm uimm) (encode (.csrrsi rd csr uimm)) s

/-- CSRRCI (R96). -/
def execCsrrci (rd : Reg) (csr : Nat) (uimm : Nat) (s : State) : Host.Outcome State Fault Refusal :=
  execCSR .clearBits rd csr (.imm uimm) (encode (.csrrci rd csr uimm)) s

end Sys2Proof.Machine
end

