-- ==== Sys2Proof/Machine/Fetch.lean ====
section
/-! DEFINITION. Fetching an instruction's bytes (spec/20_memory.md R50, R52, R53; spec/70_reset_and_hazards.md R215). -/

namespace Sys2Proof.Machine

/-- Why the bytes at `addr` cannot be read: the end of the program text, or a byte with no value. -/
def fetchStop (m : Memory) (pc : Word) (xlen : Xlen) : Fault :=
  match textEnd m with
  | some a => if a % 2 ^ xlen.bits = pc.toNat ∧ readByte m pc.toNat = none then .completed pc else .fetchUnwritten pc.toNat
  | none => .fetchUnwritten pc.toNat

/-- The four bytes at `pc`: refused where `pc` is not a multiple of 4 (20_memory.md R53), a fault where the address
does not exist, where the program text ends (70_reset_and_hazards.md R215), or where a byte has no value (log 11 to
13). -/
def fetch (s : State) : Host.Outcome (List Byte) Fault Refusal :=
  if s.pc.toNat % 4 ≠ 0 then .refused (.pcMisaligned s.pc)
  else if 2 ^ s.params.xlen.bits ≤ s.pc.toNat then .fault (.fetchOutsideSpace s.pc.toNat)
  else
    match readBytes s.mem s.pc.toNat 4 with
    | some bs => .next bs
    | none => .fault (fetchStop s.mem s.pc s.params.xlen)

end Sys2Proof.Machine
end

