-- ==== Sys2Proof/Machine/Step.lean ====
section
/-! DEFINITION. One step of the machine: one instruction of the hart, the entropy source's turns before and after it
(spec/41_seed_polling.md R118, spec/20_memory.md R56, spec/40_csr_instructions.md R90). -/

namespace Sys2Proof.Machine

/-- The hart's instruction: fetched at `pc`, decoded, executed; a word that is no instruction of this hardware is
refused by name (30_encoding.md R76 (d); log 14). -/
def hartStep (s : State) : Host.Outcome State Fault Refusal :=
  match fetch s with
  | .next bytes =>
    match decode bytes with
    | .ok (i, _) => exec i s
    | .error r => .refused (.outsideSpec r)
  | .fault f => .fault f
  | .refused r => .refused r

/-- One step: any finite number of entropy-source events, one instruction, any finite number of events again: so they
fall before the first instruction, between two, and after the last (41_seed_polling.md R118; log 9). -/
def step (s : State) : Host.Outcome State Fault Refusal := closingTurn (hartStep (esPhase s))

/-- `s` with the instruction word placed where `step` fetches its next instruction: the four bytes at `pc`, in the
order of 20_memory.md R52. It stands for the load of a program from outside (log 12). -/
def State.withFetchWord (s : State) (nbits w : Nat) : State :=
  { s with mem := writeBytes s.pc.toNat (tableBytes nbits w) s.mem }

end Sys2Proof.Machine
end

