-- ==== Sys2Proof/Machine/RunEnd.lean ====
section
/-! DEFINITION. The states of a run, and the state that it leaves when it ends (spec/41_seed_polling.md R118, spec/60_exceptions.md R183,
spec/70_reset_and_hazards.md R215). -/

namespace Sys2Proof.Machine

/-- The state of the machine once a step is over, whatever its outcome. A step that stops (completed, trapped in the
hardware alone, refused) writes no state (60_exceptions.md R183), but the entropy source has had its turn before it and
has it again after it, the instruction being the last of its run (41_seed_polling.md R118; log 9). -/
def stateAfter (s : State) : State :=
  match step s with
  | .next t => t
  | .fault _ => esPhase (esPhase s)
  | .refused _ => esPhase (esPhase s)

/-- The state of the machine after `n` steps of a run from `s`. Where a step has stopped, its run is over; a claim about
later steps says that none has. -/
def stateAt (s : State) : Nat → State
  | 0 => s
  | n + 1 => stateAt (stateAfter s) n

end Sys2Proof.Machine
end

