-- ==== Sys2Proof/Safety.lean ====
section
/-! DEFINITION. The terms that claims use: the premises of a run, who may poll, the legal words and traces, what a
completed access leaves, and the named assumption on the entropy source (spec/70_reset_and_hazards.md R216,
spec/60_exceptions.md R189, spec/10_state.md R28, spec/41_seed_polling.md R121, R122,
spec/42_entropy_requirements.md R140, R142). -/

namespace Sys2Proof.Safety

open Sys2Proof.Machine

/-- `WellFormedMode` (70_reset_and_hazards.md R216, 10_state.md R23). -/
structure WellFormedMode (s : State) : Prop where
  supervisor : s.priv = .s → s.params.hasS = true
  user : s.priv = .u → s.params.hasU = true
  virtual : s.virt = true → s.params.hasH = true ∧ s.priv ≠ .m

/-- `BitsRespectHardwiring` (R216, 10_state.md R35). -/
structure BitsRespectHardwiring (s : State) : Prop where
  sseed : s.sseed = true → s.params.sseedWritable = true
  useed : s.useed = true → s.params.useedWritable = true

/-- `EsInvariant` (R216, 10_state.md R28). -/
structure EsInvariant (es : Es) : Prop where
  entropy : es.opst ≠ .es16 → es.entropy = 0
  latch : es.bistLatched = true → es.opst = .bist ∨ es.opst = .dead

/-- `PcAligned` (R216, 20_memory.md R53). -/
def PcAligned (s : State) : Prop := s.pc.toNat % 4 = 0

/-- Registers and `pc` hold `XLEN`-bit values (10_state.md R20, R21; the model's form of the width: log 3). -/
structure WordsFit (s : State) : Prop where
  regs : ∀ r : Reg, (readReg s r).toNat < 2 ^ s.params.xlen.bits
  pc : s.pc.toNat < 2 ^ s.params.xlen.bits

/-- The program text is in canonical form and lies in the address space. -/
structure MemoryFits (s : State) : Prop where
  canonical : Memory.wf s.mem
  inSpace : ∀ c ∈ s.mem, c.1 < 2 ^ s.params.xlen.bits

/-- The premises of 70_reset_and_hazards.md R216, with the model's two of its own. `OperandsDefined` has no place: every
register holds a value (log 1). -/
structure Premises (s : State) : Prop where
  mode : WellFormedMode s
  bits : BitsRespectHardwiring s
  source : EsInvariant s.es
  aligned : PcAligned s
  words : WordsFit s
  memory : MemoryFits s

/-- This mode may poll (60_exceptions.md R189, 43_access_control.md R162): M always, S/HS with `sseed`, U with `useed`,
a virtual mode never. -/
def MayPoll (s : State) : Prop :=
  s.params.zkr = true ∧ s.virt = false ∧
    (s.priv = .m ∨ (s.priv = .s ∧ s.sseed = true) ∨ (s.priv = .u ∧ s.useed = true))

/-- The fields that no instruction writes when it completes (10_state.md R23, R37; 20_memory.md R50). -/
structure SameContext (s t : State) : Prop where
  params : t.params = s.params
  priv : t.priv = s.priv
  virt : t.virt = s.virt
  trap : t.trap = s.trap
  memory : ∀ addr, readByte t.mem addr = readByte s.mem addr

/-- `x[rd]` has become the `XLEN`-bit value `v`, no other register has changed; `x0` still reads zero (10_state.md
R20). -/
def WritesOnly (rd : Reg) (v : Word) (s t : State) : Prop :=
  ∀ r : Reg, readReg t r = if r = rd ∧ r ≠ 0 then v else readReg s r

/-- `t` is `s` after one permitted poll into `rd`: the returned word zero-extended in `rd`, the entropy source as the
poll leaves it, one set of draws used, `pc` advanced, nothing else changed (40_csr_instructions.md R90). -/
structure PollResult (rd : Reg) (s t : State) : Prop where
  register : WritesOnly rd (zext32 (seedPoll s).1) s t
  source : t.es = (seedPoll s).2.es
  draws : t.env = consumeDraw s.env
  pc : t.pc = nextPc s
  sseed : t.sseed = s.sseed
  useed : t.useed = s.useed
  context : SameContext s t

/-- `t` is `s` after one completed access to `mseccfg`: its old value in `rd`, the two bits as given, `pc` advanced,
nothing else changed (40_csr_instructions.md R90). -/
structure MseccfgResult (rd : Reg) (sseed useed : Bool) (s t : State) : Prop where
  register : WritesOnly rd (mseccfgRead s) s t
  sseed : t.sseed = sseed
  useed : t.useed = useed
  source : t.es = s.es
  draws : t.env = s.env
  pc : t.pc = nextPc s
  context : SameContext s t

/-- An outcome with a function applied to its next state. -/
def mapNext (f : State → State) : Host.Outcome State Fault Refusal → Host.Outcome State Fault Refusal
  | .next t => .next (f t)
  | .fault r => .fault r
  | .refused r => .refused r

/-- The four forms of word that a poll can return (10_state.md R28). -/
def SeedWordForm (w : BitVec 32) : Prop :=
  ∃ (o : Opst) (r : BitVec 6) (c : BitVec 8) (e : BitVec 16),
    w = opstCode o ++ r ++ c ++ e ∧ (o ≠ .es16 → e = 0)

/-- Words that successive polls may return: of the four forms, and only `DEAD` after `DEAD` (41_seed_polling.md
R122). -/
def LegalTrace (l : List (BitVec 32)) : Prop :=
  (∀ w ∈ l, SeedWordForm w) ∧
    l.Pairwise (fun v w => statusOfWord v = .dead → statusOfWord w = .dead)

/-- The words returned by `n` successive permitted polls, the entropy source having its turns before and after each as
`step` gives them (41_seed_polling.md R118, R122; log 9). -/
def pollTrace : Nat → State → List (BitVec 32)
  | 0, _ => []
  | n + 1, s => (seedPoll (esPhase s)).1 :: pollTrace n (esPhase (seedPoll (esPhase s)).2)

/-- The step from `s` is a permitted poll: the instruction it fetches, after the source's turn, is a read-write form of
`seed` in a mode that may poll (41_seed_polling.md R110). -/
def StepPolls (s : State) : Prop :=
  ∃ bytes i rest, fetch (esPhase s) = .next bytes ∧ decode bytes = .ok (i, rest) ∧
    csrOf i = seedAddr ∧ isReadWrite i = true ∧ MayPoll (esPhase s)

/-- The word that the step from `s` returns where it is a poll. -/
def polledWord (s : State) : BitVec 32 := (seedPoll (esPhase s)).1

/-- A run of the machine from `s` that goes on for ever and polls again and again. -/
structure PollsForEver (s : State) : Prop where
  goesOn : ∀ n, ∃ t, step (stateAt s n) = .next t
  polls : ∀ n, ∃ m, n ≤ m ∧ StepPolls (stateAt s m)

/-- The named assumption `ES_EVENTUALLY_READY` (41_seed_polling.md R121, decision D11), which nothing here assumes: from
`BIST` or `WAIT`, some later poll of a run that keeps polling returns `ES16` or `DEAD`. It is about the polls of `step`,
with the source's turns where `step` has them (log 32). -/
def EsEventuallyReady : Prop :=
  ∀ s : State, Premises s → PollsForEver s → s.es.opst = .bist ∨ s.es.opst = .wait →
    ∃ m, StepPolls (stateAt s m) ∧
      (statusOfWord (polledWord (stateAt s m)) = .es16 ∨ statusOfWord (polledWord (stateAt s m)) = .dead)

/-! The figures of 42_entropy_requirements.md R140 and R142: requirements on what software collects, no behaviour of
the machine (R148; log 30). -/

/-- Bits of randomness in one `ES16` word. -/
def entropyBitsPerWord : Nat := 16

/-- Bits that 2-to-1 conditioning takes in for one block (R140). -/
def conditioningInputBits : Nat := 256

/-- Bits of full entropy it yields (R140). -/
def conditioningOutputBits : Nat := 128

/-- Min-entropy that each such input block must have (R141, R142). -/
def minEntropyOfInputBlock : Nat := 192

/-- `ES16` words needed for `blocks` blocks of full entropy (R140, 70_reset_and_hazards.md R213 (f)). -/
def wordsForBlocks (blocks : Nat) : Nat := blocks * conditioningInputBits / entropyBitsPerWord

/-- Bits recommended to initialise a DRBG of 256-bit security (R142). -/
def recommendedInitBits : Nat := 512

/-- The entropy that a program may use of the words it has polled: that of the `ES16` words, in order
(70_reset_and_hazards.md R213 (b), (e); 41_seed_polling.md R124). -/
def usableEntropy (l : List (BitVec 32)) : List (BitVec 16) := l.filterMap entropyOfWord

end Sys2Proof.Safety
end

