-- ==== Sys2Proof/Certificates/Slice0/Obligations.lean ====
section
/-! DEFINITION. The statements for the provers. OBLIGATIONS.json lists them with their rules. -/

open Sys2Proof Sys2Proof.Machine Sys2Proof.Safety

/-! Encoding (30_encoding.md). -/

/-- Decoding the bytes of a well-formed instruction gives it back, with the bytes after it untouched: every operand of
all six at every value the encoding admits (30_encoding.md R71 to R73; five of the six `funct3` codes are the spec's
general knowledge, log 16). -/
def Obligations.DecodeInvertsEncode : Prop :=
  ∀ (i : Instr) (rest : List Byte), WellFormed i → decode (bytesOfWord (encode i) ++ rest) = .ok (i, rest)

/-- Whatever the decoder accepts is the four bytes of the instruction it answers, and that instruction is well formed:
no bit of a word is dropped, no other length is read (30_encoding.md R70, R71). -/
def Obligations.DecodedBytesAreTheEncoding : Prop :=
  ∀ (bs rest : List Byte) (i : Instr), decode bs = .ok (i, rest) →
    WellFormed i ∧ bs = bytesOfWord (encode i) ++ rest

/-- The opcode map: a word is accepted exactly where `word & 0x0000707F` is a `match` of the table, as that row's
instruction, the other 25 bits being its fields (30_encoding.md R73, where all but CSRRW's code is general knowledge:
log 16). -/
def Obligations.DecodeFollowsTheOpcodeMap : Prop :=
  ∀ (w : BitVec 32) (i : Instr), decodeWord w = .ok i ↔
    (w &&& 0x0000707F#32 = 0x00001073#32 ∧
      i = .csrrw (regOfField (w.extractLsb' 7 5)) (w.extractLsb' 20 12).toNat (regOfField (w.extractLsb' 15 5))) ∨
    (w &&& 0x0000707F#32 = 0x00002073#32 ∧
      i = .csrrs (regOfField (w.extractLsb' 7 5)) (w.extractLsb' 20 12).toNat (regOfField (w.extractLsb' 15 5))) ∨
    (w &&& 0x0000707F#32 = 0x00003073#32 ∧
      i = .csrrc (regOfField (w.extractLsb' 7 5)) (w.extractLsb' 20 12).toNat (regOfField (w.extractLsb' 15 5))) ∨
    (w &&& 0x0000707F#32 = 0x00005073#32 ∧
      i = .csrrwi (regOfField (w.extractLsb' 7 5)) (w.extractLsb' 20 12).toNat (w.extractLsb' 15 5).toNat) ∨
    (w &&& 0x0000707F#32 = 0x00006073#32 ∧
      i = .csrrsi (regOfField (w.extractLsb' 7 5)) (w.extractLsb' 20 12).toNat (w.extractLsb' 15 5).toNat) ∨
    (w &&& 0x0000707F#32 = 0x00007073#32 ∧
      i = .csrrci (regOfField (w.extractLsb' 7 5)) (w.extractLsb' 20 12).toNat (w.extractLsb' 15 5).toNat)

/-- The words that are no CSR instruction are refused by name, SYSTEM with `funct3` 000 or 100 under a name of its own,
and a step that fetches one is refused (30_encoding.md R76 (d), the spec's decision D18: log 14). -/
def Obligations.WordsOutsideTheTableAreRefused : Prop :=
  (∀ w : BitVec 32, w &&& 0x7F#32 = 0x73#32 → (w.extractLsb' 12 3 = 0b000#3 ∨ w.extractLsb' 12 3 = 0b100#3) →
    decodeWord w = .error (.systemNotCsr w)) ∧
  (∀ w : BitVec 32, w &&& 0x7F#32 ≠ 0x73#32 → decodeWord w = .error (.notSystemOpcode w)) ∧
  (∀ (s : State) (bs : List Byte) (r : DecodeReject), fetch (esPhase s) = .next bs → decode bs = .error r →
    step s = .refused (.outsideSpec r))

/-- Some words written out in 95_test_vectors.md, part 2.1, decode to the instructions they stand for (log 16). -/
def Obligations.VectorWordsDecode : Prop :=
  decodeTableWord 32 0x01501573 = some (.csrrw 10 0x015 0) ∧
  decodeTableWord 32 0x0152A573 = some (.csrrs 10 0x015 5) ∧
  decodeTableWord 32 0x7472B073 = some (.csrrc 0 0x747 5) ∧
  decodeTableWord 32 0x015FD573 = some (.csrrwi 10 0x015 31) ∧
  decodeTableWord 32 0x0150E573 = some (.csrrsi 10 0x015 1) ∧
  decodeTableWord 32 0x74707673 = some (.csrrci 12 0x747 0)

/-- `isWrite` is decided by the encoding alone: true for CSRRW and CSRRWI, for the four others exactly when bits 19:15
of the word are not zero (30_encoding.md R75). CSRRWI is named by its `funct3` code 101, which 30_encoding.md R73 marks
as general knowledge (PRESUMED: log 16). -/
def Obligations.WriteFormIsDecidedByTheEncoding : Prop :=
  ∀ i : Instr, WellFormed i →
    (isReadWrite i = true ↔
      (encode i).extractLsb' 12 3 = 0b001#3 ∨ (encode i).extractLsb' 12 3 = 0b101#3 ∨
        (encode i).extractLsb' 15 5 ≠ 0b00000#5)

/-! Access to `seed` (43_access_control.md). -/

/-- `SeedAccess` decides every access to CSR 0x015, for all six instructions: read-only forms are illegal, a virtual
mode gets the virtual instruction exception with `sseed` and illegal instruction without, M polls, S/HS polls with
`sseed`, U with `useed`, and else the access is illegal (43_access_control.md R160, R162). -/
def Obligations.SeedAccessDecidesEverySeedInstruction : Prop :=
  ∀ (i : Instr) (s : State), csrOf i = 0x015 → s.params.zkr = true →
    (isReadWrite i = false → exec i s = takeException .illegalInstruction (encode i) s) ∧
    (isReadWrite i = true →
      (s.virt = true → s.sseed = true → exec i s = takeException .virtualInstruction (encode i) s) ∧
      (s.virt = true → s.sseed = false → exec i s = takeException .illegalInstruction (encode i) s) ∧
      (s.virt = false → s.priv = .m → ∃ t, exec i s = .next t ∧ PollResult (rdOf i) s t) ∧
      (s.virt = false → s.priv = .s → s.sseed = true → ∃ t, exec i s = .next t ∧ PollResult (rdOf i) s t) ∧
      (s.virt = false → s.priv = .s → s.sseed = false →
        exec i s = takeException .illegalInstruction (encode i) s) ∧
      (s.virt = false → s.priv = .u → s.useed = true → ∃ t, exec i s = .next t ∧ PollResult (rdOf i) s t) ∧
      (s.virt = false → s.priv = .u → s.useed = false →
        exec i s = takeException .illegalInstruction (encode i) s))

/-- The read-only forms of `seed` raise illegal instruction in every state, whatever the mode and the access bits,
also where a read-write form would raise the virtual instruction exception (43_access_control.md R161). -/
def Obligations.ReadOnlySeedFormsAreIllegal : Prop :=
  ∀ (rd : Reg) (s : State),
    (exec (.csrrs rd 0x015 0) s = takeException .illegalInstruction (encode (.csrrs rd 0x015 0)) s ∧
     exec (.csrrc rd 0x015 0) s = takeException .illegalInstruction (encode (.csrrc rd 0x015 0)) s ∧
     exec (.csrrsi rd 0x015 0) s = takeException .illegalInstruction (encode (.csrrsi rd 0x015 0)) s ∧
     exec (.csrrci rd 0x015 0) s = takeException .illegalInstruction (encode (.csrrci rd 0x015 0)) s) ∧
    (s.params.zkr = true → s.virt = true → s.sseed = true →
      ∀ i : Instr, csrOf i = 0x015 → isReadWrite i = true →
        exec i s = takeException .virtualInstruction (encode i) s)

/-- Every read-write form of `seed` completes, in every state whose mode may poll, whatever the operands: the word in
`rd` (nothing where `rd` is `x0`), the entropy source as the poll leaves it, `pc` advanced, all else unchanged
(40_csr_instructions.md R90 to R96). -/
def Obligations.PermittedPollsComplete : Prop :=
  ∀ (s : State) (rd rs1 : Reg) (uimm : Nat), MayPoll s →
    (∃ t, exec (.csrrw rd 0x015 rs1) s = .next t ∧ PollResult rd s t) ∧
    (rs1 ≠ 0 → ∃ t, exec (.csrrs rd 0x015 rs1) s = .next t ∧ PollResult rd s t) ∧
    (rs1 ≠ 0 → ∃ t, exec (.csrrc rd 0x015 rs1) s = .next t ∧ PollResult rd s t) ∧
    (∃ t, exec (.csrrwi rd 0x015 uimm) s = .next t ∧ PollResult rd s t) ∧
    (uimm ≠ 0 → ∃ t, exec (.csrrsi rd 0x015 uimm) s = .next t ∧ PollResult rd s t) ∧
    (uimm ≠ 0 → ∃ t, exec (.csrrci rd 0x015 uimm) s = .next t ∧ PollResult rd s t)

/-- Without `Zkr` every access to 0x015, in every mode and every form, raises illegal instruction (43_access_control.md
R167, decision D19; log 22). -/
def Obligations.SeedWithoutZkrIsIllegal : Prop :=
  ∀ (i : Instr) (s : State), csrOf i = 0x015 → s.params.zkr = false →
    exec i s = takeException .illegalInstruction (encode i) s

/-- Any other CSR number is refused by name, for all six instructions (40_csr_instructions.md R90, decision D18; log
14). -/
def Obligations.OtherCsrNumbersAreRefused : Prop :=
  ∀ (i : Instr) (s : State), csrOf i ≠ 0x015 → csrOf i ≠ s.params.mseccfgAddr →
    exec i s = .refused (.csrOutsideSpec (csrOf i))

/-! The poll (41_seed_polling.md). -/

/-- `SeedPoll` status by status: the word returned and what becomes of the entropy source, with `r`, `c`, the choice
and the fresh word of this poll's draws, whatever these are; nothing else changes. It is what every permitted read-write
access to `seed` does, in one step (41_seed_polling.md R110). -/
def Obligations.SeedPollByStatus : Prop :=
  (∀ (i : Instr) (s : State), csrOf i = 0x015 → isReadWrite i = true → MayPoll s →
    ∃ t, exec i s = .next t ∧ PollResult (rdOf i) s t) ∧
  ∀ s : State,
    (s.es.opst = .bist →
      (seedPoll s).1 = 0b00#2 ++ (pollDraw s).rsvd ++ (pollDraw s).custom ++ 0x0000#16 ∧
      (seedPoll s).2.es = { s.es with bistLatched := false }) ∧
    (s.es.opst = .wait →
      (seedPoll s).1 = 0b01#2 ++ (pollDraw s).rsvd ++ (pollDraw s).custom ++ 0x0000#16 ∧
      (seedPoll s).2.es = s.es) ∧
    (s.es.opst = .es16 →
      (seedPoll s).1 = 0b10#2 ++ (pollDraw s).rsvd ++ (pollDraw s).custom ++ s.es.entropy ∧
      ((pollDraw s).toWait = true →
        (seedPoll s).2.es = { s.es with opst := .wait, entropy := 0x0000#16 }) ∧
      ((pollDraw s).toWait = false →
        (seedPoll s).2.es = { s.es with opst := .es16, entropy := (pollDraw s).fresh })) ∧
    (s.es.opst = .dead →
      (seedPoll s).1 = 0b11#2 ++ (pollDraw s).rsvd ++ (pollDraw s).custom ++ 0x0000#16 ∧
      (seedPoll s).2.es = s.es) ∧
    (seedPoll s).2 = { s with es := (seedPoll s).2.es, env := (seedPoll s).2.env }

/-- The write value of a `seed` access is ignored: read-write forms with one `rd` have one outcome whatever the
instruction and its source operand are, a change of any other register's value changes no more than that register,
and no instruction moves the source out of `BIST`, `WAIT` or `DEAD` or gives it a word (41_seed_polling.md R112). -/
def Obligations.SeedIgnoresTheWriteValue : Prop :=
  (∀ (i j : Instr) (s : State), csrOf i = 0x015 → csrOf j = 0x015 → rdOf i = rdOf j → MayPoll s →
    isReadWrite i = true → isReadWrite j = true → exec i s = exec j s) ∧
  (∀ (i : Instr) (s : State) (k : Reg) (v : Word), csrOf i = 0x015 → MayPoll s → isReadWrite i = true →
    ∃ t t', exec i s = .next t ∧ exec i (writeReg k v s) = .next t' ∧
      t'.es = t.es ∧ t'.env = t.env ∧ t'.pc = t.pc ∧ t'.priv = t.priv ∧ t'.virt = t.virt ∧ t'.sseed = t.sseed ∧
      t'.useed = t.useed ∧ t'.trap = t.trap ∧ t'.mem = t.mem ∧
      ∀ r : Reg, r ≠ k ∨ r = rdOf i → readReg t' r = readReg t r) ∧
  (∀ (i : Instr) (s t : State), exec i s = .next t → s.es.opst ≠ .es16 →
    t.es.opst = s.es.opst ∧ t.es.entropy = s.es.entropy)

/-- A polled word is zero-extended: bits 31:0 of `rd` are the word, bits 63:32 are zero though bit 31 may be set; on
RV32 the register is the word itself (41_seed_polling.md R113). -/
def Obligations.PolledWordIsZeroExtended : Prop :=
  (∀ (i : Instr) (s : State), csrOf i = 0x015 → isReadWrite i = true → MayPoll s → rdOf i ≠ 0 →
    ∃ t, exec i s = .next t ∧ (readReg t (rdOf i)).extractLsb' 0 32 = (seedPoll s).1 ∧
      ∀ k, 32 ≤ k → (readReg t (rdOf i)).getLsbD k = false) ∧
  zext32 0xC0000000#32 = 0x00000000C0000000#64

/-- How software decodes a word the machine returns: its status is the source's, its entropy that of an `ES16` source
and none else, whatever the reserved and custom draws; the source's two examples (41_seed_polling.md R124, R123). -/
def Obligations.SoftwareDecodesReturnedWords : Prop :=
  (∀ s : State, statusOfWord (seedPoll s).1 = s.es.opst ∧
    entropyOfWord (seedPoll s).1 = if s.es.opst = .es16 then some s.es.entropy else none) ∧
  (statusOfWord 0x8000ABCD#32 = .es16 ∧ entropyOfWord 0x8000ABCD#32 = some 0xABCD#16) ∧
  (statusOfWord 0xFFFFFFFF#32 = .dead ∧ entropyOfWord 0xFFFFFFFF#32 = none)

/-- A poll returns a word of one of the four legal forms in every state, and 0xFFFFFFFF is none of them
(10_state.md R28, 90_conflicts.md C2). -/
def Obligations.ReturnedWordsHaveFourForms : Prop :=
  (∀ s : State, SeedWordForm (seedPoll s).1) ∧ ¬ SeedWordForm 0xFFFFFFFF#32

/-- Wipe-on-read: after a poll in `ES16` nothing but `rd` depends on the word that was delivered, no other register
and no other field of the state, so it is not kept to be delivered again (41_seed_polling.md R111). -/
def Obligations.DeliveredWordIsNotKept : Prop :=
  ∀ (i : Instr) (s : State) (e : BitVec 16), csrOf i = 0x015 → isReadWrite i = true → MayPoll s →
    s.es.opst = .es16 →
    ∃ t t', exec i s = .next t ∧ exec i { s with es := { s.es with entropy := e } } = .next t' ∧
      t'.es = t.es ∧ t'.env = t.env ∧ t'.params = t.params ∧ t'.pc = t.pc ∧ t'.priv = t.priv ∧ t'.virt = t.virt ∧
      t'.sseed = t.sseed ∧ t'.useed = t.useed ∧ t'.trap = t.trap ∧ t'.mem = t.mem ∧
      ∀ r : Reg, r ≠ rdOf i → readReg t' r = readReg t r

/-- A guest (VS or VU) neither learns nor disturbs: the outcome of any instruction in a virtual mode does not depend on
the entropy source, and leaves it as it was (43_access_control.md R170, 60_exceptions.md R183, R188). -/
def Obligations.GuestNeverReachesTheSource : Prop :=
  ∀ (i : Instr) (s : State) (es : Es), s.virt = true →
    exec i { s with es := es } = mapNext (fun t => { t with es := es }) (exec i s) ∧
    ∀ t, exec i s = .next t → t.es = s.es ∧ t.env = s.env

/-- Only a permitted poll touches the entropy source: where an instruction leaves another `es`, it was a read-write
form of `seed` in a mode that may poll (41_seed_polling.md R112, 43_access_control.md R160, 60_exceptions.md R183). -/
def Obligations.OnlyPermittedPollsTouchTheSource : Prop :=
  ∀ (i : Instr) (s t : State), exec i s = .next t → (t.es ≠ s.es ∨ t.env ≠ s.env) →
    csrOf i = 0x015 ∧ isReadWrite i = true ∧ MayPoll s

/-! `mseccfg` (43_access_control.md). -/

/-- `MseccfgRead` gives `sseed` in bit 9, `useed` in bit 8 and zero in every other bit; reading has no side effect:
the read-only forms leave everything but `rd` and `pc` as it was (43_access_control.md R163). The zero of the other
bits is 10_state.md R34's decision D6 (log 15); the old value in `rd` and the M mode of the read-only forms are
general knowledge (40_csr_instructions.md R90, 43_access_control.md R165; PRESUMED: log 17, 18). -/
def Obligations.MseccfgReadsItsTwoBits : Prop :=
  (∀ s : State, (mseccfgRead s).getLsbD 9 = s.sseed ∧ (mseccfgRead s).getLsbD 8 = s.useed ∧
    ∀ k, k ≠ 9 → k ≠ 8 → (mseccfgRead s).getLsbD k = false) ∧
  (∀ s : State, s.sseed = true → s.useed = false → mseccfgRead s = 0x00000200#64) ∧
  (∀ (s : State) (rd : Reg), s.priv = .m → s.params.mseccfgAddr ≠ 0x015 →
    (∃ t, exec (.csrrs rd s.params.mseccfgAddr 0) s = .next t ∧ MseccfgResult rd s.sseed s.useed s t) ∧
    (∃ t, exec (.csrrc rd s.params.mseccfgAddr 0) s = .next t ∧ MseccfgResult rd s.sseed s.useed s t) ∧
    (∃ t, exec (.csrrsi rd s.params.mseccfgAddr 0) s = .next t ∧ MseccfgResult rd s.sseed s.useed s t) ∧
    (∃ t, exec (.csrrci rd s.params.mseccfgAddr 0) s = .next t ∧ MseccfgResult rd s.sseed s.useed s t))

/-- `MseccfgWrite(v)`: a writable bit takes its bit of `v`, a hardwired one stays 0, every other bit of `v` and every
other field is untouched; for no value does an access of M mode raise an exception, and a read-write form has the write
in its next state (43_access_control.md R164). That every other bit of `v` is ignored is 10_state.md R34's decision D6
(unsafe: log 15), the value a set or clear form writes general knowledge (40_csr_instructions.md R90: log 17). -/
def Obligations.MseccfgWriteSetsItsTwoBits : Prop :=
  (∀ (v : Word) (s : State),
    (s.params.sseedWritable = true → (mseccfgWrite v s).sseed = v.getLsbD 9) ∧
    (s.params.sseedWritable = false → (mseccfgWrite v s).sseed = false) ∧
    (s.params.useedWritable = true → (mseccfgWrite v s).useed = v.getLsbD 8) ∧
    (s.params.useedWritable = false → (mseccfgWrite v s).useed = false) ∧
    mseccfgWrite v s = { s with sseed := (mseccfgWrite v s).sseed, useed := (mseccfgWrite v s).useed } ∧
    ∀ v' : Word, v'.getLsbD 9 = v.getLsbD 9 → v'.getLsbD 8 = v.getLsbD 8 → mseccfgWrite v' s = mseccfgWrite v s) ∧
  (∀ (s : State) (i : Instr), s.priv = .m → csrOf i = s.params.mseccfgAddr → s.params.mseccfgAddr ≠ 0x015 →
    ∃ t, exec i s = .next t ∧ (isReadWrite i = true → ∃ v : Word,
      v = newValue (opOf i) (mseccfgRead s) (srcValue s (srcOf i)) ∧
      t.sseed = (mseccfgWrite v s).sseed ∧ t.useed = (mseccfgWrite v s).useed))

/-- CSRRW and CSRRWI on `mseccfg` in M mode complete: `rd` takes the old value, the bits those of the operand where
writable; the immediate has no bit 8 or 9 and clears both (40_csr_instructions.md R91, R94; the replace meaning is
general knowledge: log 17). -/
def Obligations.CsrReplaceOnMseccfg : Prop :=
  ∀ (s : State) (rd rs1 : Reg) (uimm : Nat), s.priv = .m → s.params.mseccfgAddr ≠ 0x015 → uimm < 32 →
    (∃ t, exec (.csrrw rd s.params.mseccfgAddr rs1) s = .next t ∧
      MseccfgResult rd (s.params.sseedWritable && (readReg s rs1).getLsbD 9)
        (s.params.useedWritable && (readReg s rs1).getLsbD 8) s t) ∧
    (∃ t, exec (.csrrwi rd s.params.mseccfgAddr uimm) s = .next t ∧ MseccfgResult rd false false s t)

/-- CSRRS and CSRRSI on `mseccfg` in M mode complete: `rd` takes the old value; with a source field of zero nothing is
written, else each writable bit is the OR of its old value and the operand's (40_csr_instructions.md R92, R95; the set
meaning is general knowledge: log 17). -/
def Obligations.CsrSetBitsOnMseccfg : Prop :=
  ∀ (s : State) (rd rs1 : Reg) (uimm : Nat), s.priv = .m → s.params.mseccfgAddr ≠ 0x015 → uimm < 32 →
    (∃ t, exec (.csrrs rd s.params.mseccfgAddr rs1) s = .next t ∧
      MseccfgResult rd
        (if rs1 = 0 then s.sseed else s.params.sseedWritable && (s.sseed || (readReg s rs1).getLsbD 9))
        (if rs1 = 0 then s.useed else s.params.useedWritable && (s.useed || (readReg s rs1).getLsbD 8)) s t) ∧
    (∃ t, exec (.csrrsi rd s.params.mseccfgAddr uimm) s = .next t ∧
      MseccfgResult rd (if uimm = 0 then s.sseed else s.params.sseedWritable && s.sseed)
        (if uimm = 0 then s.useed else s.params.useedWritable && s.useed) s t)

/-- CSRRC and CSRRCI on `mseccfg` in M mode complete: `rd` takes the old value; with a source field of zero nothing is
written, else each writable bit is its old value unless the operand has it (40_csr_instructions.md R93, R96; the clear
meaning is general knowledge: log 17). -/
def Obligations.CsrClearBitsOnMseccfg : Prop :=
  ∀ (s : State) (rd rs1 : Reg) (uimm : Nat), s.priv = .m → s.params.mseccfgAddr ≠ 0x015 → uimm < 32 →
    (∃ t, exec (.csrrc rd s.params.mseccfgAddr rs1) s = .next t ∧
      MseccfgResult rd
        (if rs1 = 0 then s.sseed else s.params.sseedWritable && (s.sseed && !(readReg s rs1).getLsbD 9))
        (if rs1 = 0 then s.useed else s.params.useedWritable && (s.useed && !(readReg s rs1).getLsbD 8)) s t) ∧
    (∃ t, exec (.csrrci rd s.params.mseccfgAddr uimm) s = .next t ∧
      MseccfgResult rd (if uimm = 0 then s.sseed else s.params.sseedWritable && s.sseed)
        (if uimm = 0 then s.useed else s.params.useedWritable && s.useed) s t)

/-- Discovery by a register form: after M mode sets both bits from a register that has bits 9 and 8 and reads `mseccfg`
back, bit 9 is 1 exactly when `sseed` is writable and bit 8 exactly when `useed` is (43_access_control.md R166). -/
def Obligations.DiscoveryOfWritableBits : Prop :=
  ∀ (s : State) (rd rt : Reg), s.priv = .m → s.params.mseccfgAddr ≠ 0x015 → rd ≠ 0 → rt ≠ 0 →
    (readReg s rt).getLsbD 9 = true → (readReg s rt).getLsbD 8 = true →
    ∃ t u, exec (.csrrs 0 s.params.mseccfgAddr rt) s = .next t ∧
      exec (.csrrs rd t.params.mseccfgAddr 0) t = .next u ∧
      ((readReg u rd).getLsbD 9 = true ↔ s.params.sseedWritable = true) ∧
      ((readReg u rd).getLsbD 8 = true ↔ s.params.useedWritable = true)

/-- Outside M mode every access to `mseccfg` raises illegal instruction, for all six instructions, also where `seed` is
granted (43_access_control.md R165, general knowledge: log 18). -/
def Obligations.MseccfgOutsideMachineModeIsIllegal : Prop :=
  ∀ (i : Instr) (s : State), csrOf i = s.params.mseccfgAddr → s.params.mseccfgAddr ≠ 0x015 → s.priv ≠ .m →
    exec i s = takeException .illegalInstruction (encode i) s

/-- Only M mode changes who may poll: an instruction executed in another mode leaves both bits as they were
(43_access_control.md R165, 60_exceptions.md R189; log 18). -/
def Obligations.OnlyMachineModeChangesTheAccessBits : Prop :=
  ∀ (i : Instr) (s t : State), exec i s = .next t → s.priv ≠ .m → t.sseed = s.sseed ∧ t.useed = s.useed

/-- A hardwired bit is zero at reset and stays zero in every run of any length from any state where it is zero: `sseed`
without S mode, `useed` without U mode, both without `Zkr`, and either where the implementation hardwires it
(10_state.md R35, R36; log 23). -/
def Obligations.HardwiredBitsStayZero : Prop :=
  ∀ (n : Nat) (s t : State), Host.Core.run Sys2Proof.core n s = .next t →
    (s.params.sseedWritable = false → s.sseed = false → t.sseed = false) ∧
    (s.params.useedWritable = false → s.useed = false → t.useed = false) ∧
    (s.params.hasS = false → s.sseed = false → t.sseed = false) ∧
    (s.params.hasU = false → s.useed = false → t.useed = false) ∧
    (s.params.zkr = false → s.sseed = false → s.useed = false → t.sseed = false ∧ t.useed = false) ∧
    (s.params.sseedImplemented = false → s.sseed = false → t.sseed = false) ∧
    (s.params.useedImplemented = false → s.useed = false → t.useed = false) ∧
    ∀ p : Params,
      (p.hasS = false ∨ p.zkr = false ∨ p.sseedImplemented = false → (State.resetFor p).sseed = false) ∧
      (p.hasU = false ∨ p.zkr = false ∨ p.useedImplemented = false → (State.resetFor p).useed = false)

/-! Exceptions (60_exceptions.md). -/

/-- In the hardware alone an illegal instruction exception is raised in the cases (a) to (f) of 60_exceptions.md R180
and no others, by all six instructions; (e) is general knowledge (log 18), (f) the spec's decision D19 (log 22). -/
def Obligations.IllegalInstructionExactlyWhen : Prop :=
  ∀ (i : Instr) (s : State), WellFormedMode s → s.params.trapMode = .terminal → s.params.mseccfgAddr ≠ 0x015 →
    (exec i s = .fault (.trapped .illegalInstruction s.pc (encode i) s.priv s.virt) ↔
      (csrOf i = 0x015 ∧ isReadWrite i = false) ∨
      (csrOf i = 0x015 ∧ isReadWrite i = true ∧ s.priv = .s ∧ s.virt = false ∧ s.sseed = false) ∨
      (csrOf i = 0x015 ∧ isReadWrite i = true ∧ s.priv = .u ∧ s.virt = false ∧ s.useed = false) ∨
      (csrOf i = 0x015 ∧ isReadWrite i = true ∧ s.virt = true ∧ s.sseed = false) ∨
      (csrOf i = s.params.mseccfgAddr ∧ s.priv ≠ .m) ∨
      (csrOf i = 0x015 ∧ s.params.zkr = false))

/-- In the hardware alone a virtual instruction exception is raised in one case exactly, by all six instructions: a
read-write form of `seed` in VS or VU with `sseed` = 1 on a hart that has `Zkr`; such a hart has the H extension
(60_exceptions.md R181). `Zkr` is the spec's decision D19 (43_access_control.md R167: log 22), the terminal outcome its
decision D1 (60_exceptions.md R185: log 4). -/
def Obligations.VirtualInstructionExactlyWhen : Prop :=
  ∀ (i : Instr) (s : State), WellFormedMode s → s.params.trapMode = .terminal →
    (exec i s = .fault (.trapped .virtualInstruction s.pc (encode i) s.priv s.virt) ↔
      s.params.zkr = true ∧ csrOf i = 0x015 ∧ isReadWrite i = true ∧ s.virt = true ∧ s.sseed = true) ∧
    (exec i s = .fault (.trapped .virtualInstruction s.pc (encode i) s.priv s.virt) → s.params.hasH = true)

/-- The model's choice between the two readings of 60_exceptions.md R185 (log 4, 5): in the hardware alone a raised
exception is the terminal `Trapped(E, pc, instr, priv, V)`; in a composed model it is a next state. -/
def Obligations.RaisedExceptionOutcome : Prop :=
  ∀ (e : Exception) (w : BitVec 32) (s : State),
    (s.params.trapMode = .terminal → takeException e w s = .fault (.trapped e s.pc w s.priv s.virt)) ∧
    (s.params.trapMode = .privileged → takeException e w s = .next (enterTrap e w s))

/-- Trap entry into M mode in a composed model (the outline of 60_exceptions.md R185 and R182; PRESUMED, log 5): taken
where nothing delegates it. -/
def Obligations.TrapEntryIntoMachineMode : Prop :=
  ∀ (e : Exception) (w : BitVec 32) (s t : State), s.params.trapMode = .privileged → takeException e w s = .next t →
    (s.priv = .m ∨ s.params.hasS = false ∨ s.trap.medeleg.getLsbD (causeCode s.params e) = false) →
    t.priv = .m ∧ t.virt = false ∧ t.pc = clip s.params.xlen (s.trap.m.tvec &&& ~~~3#64) ∧
    t.trap.m.epc = s.pc ∧ t.trap.m.cause = clip s.params.xlen (BitVec.ofNat 64 (causeCode s.params e)) ∧
    t.trap.m.tval = (if s.params.tvalHoldsInstr then zext32 w else 0) ∧
    t.trap.m.pp = s.priv ∧ t.trap.mpv = s.virt ∧ t.trap.m.pie = s.trap.m.ie ∧ t.trap.m.ie = false ∧
    t.trap.m.tvec = s.trap.m.tvec ∧ t.trap.s = s.trap.s ∧ t.trap.vs = s.trap.vs ∧ t.trap.spv = s.trap.spv ∧
    t.trap.medeleg = s.trap.medeleg ∧ t.trap.hedeleg = s.trap.hedeleg

/-- Delegated trap entry in a composed model (the outline of 60_exceptions.md R185; PRESUMED, log 5): into VS for an
illegal instruction exception of a guest that `hedeleg` passes on, `V` staying 1; else into S/HS with `V` = 0; the
virtual instruction exception never into VS. -/
def Obligations.DelegatedTrapEntry : Prop :=
  ∀ (e : Exception) (w : BitVec 32) (s t : State), s.params.trapMode = .privileged → takeException e w s = .next t →
    s.priv ≠ .m → s.params.hasS = true → s.trap.medeleg.getLsbD (causeCode s.params e) = true →
    t.priv = .s ∧ t.trap.m = s.trap.m ∧ t.trap.mpv = s.trap.mpv ∧
    t.trap.medeleg = s.trap.medeleg ∧ t.trap.hedeleg = s.trap.hedeleg ∧
    (s.virt = true ∧ e = .illegalInstruction ∧ s.trap.hedeleg.getLsbD (causeCode s.params e) = true →
      t.virt = true ∧ t.pc = clip s.params.xlen (s.trap.vs.tvec &&& ~~~3#64) ∧ t.trap.vs.epc = s.pc ∧
      t.trap.vs.cause = clip s.params.xlen (BitVec.ofNat 64 (causeCode s.params e)) ∧
      t.trap.vs.tval = (if s.params.tvalHoldsInstr then zext32 w else 0) ∧ t.trap.vs.tvec = s.trap.vs.tvec ∧
      t.trap.vs.pp = s.priv ∧ t.trap.vs.pie = s.trap.vs.ie ∧ t.trap.vs.ie = false ∧
      t.trap.s = s.trap.s ∧ t.trap.spv = s.trap.spv) ∧
    (¬ (s.virt = true ∧ e = .illegalInstruction ∧ s.trap.hedeleg.getLsbD (causeCode s.params e) = true) →
      t.virt = false ∧ t.pc = clip s.params.xlen (s.trap.s.tvec &&& ~~~3#64) ∧ t.trap.s.epc = s.pc ∧
      t.trap.s.cause = clip s.params.xlen (BitVec.ofNat 64 (causeCode s.params e)) ∧
      t.trap.s.tval = (if s.params.tvalHoldsInstr then zext32 w else 0) ∧ t.trap.s.tvec = s.trap.s.tvec ∧
      t.trap.s.pp = s.priv ∧ t.trap.spv = s.virt ∧ t.trap.s.pie = s.trap.s.ie ∧ t.trap.s.ie = false ∧
      t.trap.vs = s.trap.vs)

/-- An instruction that raises an exception leaves the hardware as it was: no poll, no wipe, no latch cleared, no
register and no access bit written, no byte of memory; the `pc` saved by the level that takes the trap is its own
(60_exceptions.md R183; in a composed model, since in the hardware alone the run ends there; the spec's decision D17:
log 5, 25). -/
def Obligations.ExceptionLeavesTheHardwareAsItWas : Prop :=
  ∀ (i : Instr) (s : State) (e : Exception), s.params.trapMode = .privileged →
    exec i s = takeException e (encode i) s →
    ∃ t, exec i s = .next t ∧ t.es = s.es ∧ t.env = s.env ∧ t.sseed = s.sseed ∧ t.useed = s.useed ∧
      t.params = s.params ∧ (∀ r : Reg, readReg t r = readReg s r) ∧
      (∀ a : Nat, readByte t.mem a = readByte s.mem a) ∧
      (trapLevel e s = .m → t.trap.m.epc = s.pc) ∧ (trapLevel e s = .s → t.trap.s.epc = s.pc) ∧
      (trapLevel e s = .vs → t.trap.vs.epc = s.pc)

/-- Trap return undoes trap entry: privilege, `V`, `pc` and the interrupt enable come back (60_exceptions.md R186;
PRESUMED, log 7). -/
def Obligations.TrapReturnUndoesTrapEntry : Prop :=
  ∀ (e : Exception) (w : BitVec 32) (s : State),
    (returnFromTrap (trapLevel e s) (enterTrap e w s)).priv = s.priv ∧
    (returnFromTrap (trapLevel e s) (enterTrap e w s)).virt = s.virt ∧
    (returnFromTrap (trapLevel e s) (enterTrap e w s)).pc = s.pc ∧
    (returnFromTrap (trapLevel e s) (enterTrap e w s)).trap.m.ie = s.trap.m.ie ∧
    (returnFromTrap (trapLevel e s) (enterTrap e w s)).trap.s.ie = s.trap.s.ie ∧
    (returnFromTrap (trapLevel e s) (enterTrap e w s)).trap.vs.ie = s.trap.vs.ie

/-! Frames (10_state.md, 20_memory.md). -/

/-- The frame of all six instructions in the hardware alone: a completed instruction writes no register but `rd`,
advances `pc` by 4 modulo 2^XLEN (decision D12: log 26), and leaves the mode, every trap register and every byte of
memory unchanged (10_state.md R20, R21, R23, R37; 20_memory.md R50). -/
def Obligations.CompletedInstructionFrame : Prop :=
  ∀ (i : Instr) (s t : State), s.params.trapMode = .terminal → exec i s = .next t →
    (∀ r : Reg, r ≠ rdOf i → readReg t r = readReg s r) ∧ readReg t 0 = 0 ∧
    t.pc.toNat = (s.pc.toNat + 4) % 2 ^ s.params.xlen.bits ∧ SameContext s t

/-- With `rd` = `x0` an instruction of the six writes no register, in either trap mode (10_state.md R20). -/
def Obligations.DestinationX0WritesNoRegister : Prop :=
  ∀ (i : Instr) (s t : State), rdOf i = 0 → exec i s = .next t → ∀ r : Reg, readReg t r = readReg s r

/-- The immediate forms cannot reach `sseed` and `useed`: CSRRSI and CSRRCI leave both bits, and CSRRWI can only clear
them (30_encoding.md R72). -/
def Obligations.ImmediatesCannotSetTheAccessBits : Prop :=
  ∀ (rd : Reg) (csr uimm : Nat) (s t : State), uimm < 32 → BitsRespectHardwiring s →
    (exec (.csrrsi rd csr uimm) s = .next t → t.sseed = s.sseed ∧ t.useed = s.useed) ∧
    (exec (.csrrci rd csr uimm) s = .next t → t.sseed = s.sseed ∧ t.useed = s.useed) ∧
    (exec (.csrrwi rd csr uimm) s = .next t →
      (t.sseed = true → s.sseed = true) ∧ (t.useed = true → s.useed = true))

/-! The entropy source (41_seed_polling.md). -/

/-- The encodings of `OPST`, and its one success status (10_state.md R26). -/
def Obligations.OpstEncodings : Prop :=
  opstCode .bist = 0b00#2 ∧ opstCode .wait = 0b01#2 ∧ opstCode .es16 = 0b10#2 ∧ opstCode .dead = 0b11#2 ∧
    ∀ o : Opst, isSuccess o = true ↔ o = .es16

/-- The transitions of `EsStep` are those of the table of 41_seed_polling.md R118 and no others: none out of `DEAD`,
none out of a latched `BIST` but to `DEAD`, none from `ES16` to `WAIT` (the spec's decision D9: log 21). -/
def Obligations.EsStepAdmitsExactlyTheTable : Prop :=
  ∀ (tr : EsTransition) (es es' : Es), esStep tr es = some es' ↔
    (es.opst = .bist ∧ es.bistLatched = false ∧ tr = .toWait ∧ es' = { es with opst := .wait }) ∨
    (es.opst = .bist ∧ es.bistLatched = false ∧ ∃ w, tr = .toEs16 w ∧ es' = { es with opst := .es16, entropy := w }) ∨
    (es.opst = .bist ∧ tr = .toDead ∧ es' = { es with opst := .dead }) ∨
    (es.opst = .wait ∧ ∃ w, tr = .toEs16 w ∧ es' = { es with opst := .es16, entropy := w }) ∨
    (es.opst = .wait ∧ tr = .toBist ∧ es' = { es with opst := .bist, bistLatched := true }) ∨
    (es.opst = .wait ∧ tr = .toDead ∧ es' = { es with opst := .dead }) ∨
    (es.opst = .es16 ∧ tr = .toBist ∧ es' = { es with opst := .bist, entropy := 0x0000#16, bistLatched := true }) ∨
    (es.opst = .es16 ∧ tr = .toDead ∧ es' = { es with opst := .dead, entropy := 0x0000#16 })

/-- A turn of the entropy source is its list of events, in order, and touches `es` only, no poll's draws either; an
event is the `EsStep` transition it asks for, or nothing where that is not admitted; where the source is not shared
another hart's poll does nothing to it, where it is shared it does what a poll does; a step that stops leaves no
change but the turns before and after it (41_seed_polling.md R118, 60_exceptions.md R183, R191; the list, its script
and what a transition that is not admitted does are the model's: log 9, 10). -/
def Obligations.SourceTurnTouchesOnlyTheSource : Prop :=
  (∀ s : State, esPhase s = { s with es := (esPhase s).es, env := (esPhase s).env } ∧
    (esPhase s).env.polls = s.env.polls ∧ (esPhase s).env.pollScript = s.env.pollScript ∧
    (s.env.esScript = [] → (esPhase s).es = runEvents s.params (Config.esEvents s.env.ticks) s.es) ∧
    ∀ l rest, s.env.esScript = l :: rest →
      (esPhase s).es = runEvents s.params l s.es ∧ (esPhase s).env.esScript = rest) ∧
  (∀ (p : Params) (es : Es), runEvents p [] es = es ∧
    ∀ (ev : EnvEvent) (l : List EnvEvent), runEvents p (ev :: l) es = runEvents p l (envEvent p ev es)) ∧
  (∀ (p : Params) (tr : EsTransition) (es : Es),
    (∀ es', esStep tr es = some es' → envEvent p (.es tr) es = es') ∧
    (esStep tr es = none → envEvent p (.es tr) es = es)) ∧
  (∀ s : State, (∀ t, step s ≠ .next t) →
    stateAfter s = { s with es := (stateAfter s).es, env := (stateAfter s).env } ∧
      (stateAfter s).es = (esPhase (esPhase s)).es) ∧
  (∀ (p : Params) (d : PollDraw) (es : Es),
    (p.esShared = false → envEvent p (.otherHartPoll d) es = es) ∧
    (p.esShared = true → envEvent p (.otherHartPoll d) es = pollEs es d))

/-- The alarm latch: entering `BIST` sets it; while it is set no run of the source's own transitions reaches `WAIT` or
`ES16`; of the instructions only a poll that returns `BIST` clears it, so one that raises an exception does not; the
`BIST` after reset is not latched (41_seed_polling.md R119). -/
def Obligations.AlarmIsHeldUntilPolled : Prop :=
  (∀ es es' : Es, esStep .toBist es = some es' → es'.bistLatched = true) ∧
  (∀ (p : Params) (l : List EnvEvent) (es : Es), p.esShared = false → es.opst = .bist → es.bistLatched = true →
    (runEvents p l es).bistLatched = true ∧
      ((runEvents p l es).opst = .bist ∨ (runEvents p l es).opst = .dead)) ∧
  (∀ (i : Instr) (s t : State), exec i s = .next t → s.es.bistLatched = true → t.es.bistLatched = false →
    csrOf i = 0x015 ∧ isReadWrite i = true ∧ MayPoll s ∧ statusOfWord (seedPoll s).1 = .bist) ∧
  (∀ (i : Instr) (s : State), csrOf i = 0x015 → isReadWrite i = true → MayPoll s → s.es.opst = .bist →
    ∃ t, exec i s = .next t ∧ t.es.bistLatched = false) ∧
  (∀ p : Params, (State.resetFor p).es.bistLatched = false)

/-- `DEAD` is absorbing: in every run of any length from any state whose source is `DEAD` it stays `DEAD`, and every
poll there returns the `DEAD` status with no entropy (41_seed_polling.md R117, the resolution of C1: log 21). -/
def Obligations.DeadIsAbsorbing : Prop :=
  ∀ (n : Nat) (s t : State), s.es.opst = .dead → Host.Core.run Sys2Proof.core n s = .next t →
    t.es.opst = .dead ∧ statusOfWord (seedPoll t).1 = .dead ∧ (seedPoll t).1.extractLsb' 0 16 = 0x0000#16

/-- The set of poll traces: from reset, over every schedule of the source and every draw, the words of `n` successive
polls are exactly the lists of `n` legal words in which only `DEAD` follows `DEAD` (41_seed_polling.md R122, which the
spec derives). Schedules and draws are the scripts of `env`, the model's own (log 8, 9). -/
def Obligations.PollTracesAreExactlyTheLegalOnes : Prop :=
  ∀ (p : Params) (l : List (BitVec 32)),
    (∃ env : Env, pollTrace l.length { State.resetFor p with env := env } = l) ↔ LegalTrace l

/-! The machine (20_memory.md, 70_reset_and_hazards.md). -/

/-- Every step keeps the premises of a run, from every state that has them: the mode exists, hardwired bits are zero,
`entropy` is zero outside `ES16` and the latch is set only in `BIST` or `DEAD`, `pc` is aligned, registers are
`XLEN`-bit, the program text is canonical and in the address space (70_reset_and_hazards.md R216; 10_state.md R28). -/
def Obligations.EveryStepKeepsThePremises : Prop :=
  ∀ s t : State, Premises s → step s = .next t → Premises t

/-- The reset state of every consistent parameter record has the premises (70_reset_and_hazards.md R216). -/
def Obligations.ResetHasThePremises : Prop :=
  ∀ p : Params, p.wf = true → Premises (State.resetFor p)

/-- What reset leaves, for every parameter record (70_reset_and_hazards.md R210, 10_state.md R39): the source in
`BIST`, empty and unlatched, the access bits at their reset values and zero where hardwired, M mode with `V` = 0, `pc`
at the reset vector. M mode is general knowledge (log 24); the zero of `x1` to `x31` is the model's choice (log 1) and
is not stated. -/
def Obligations.ResetState : Prop :=
  ∀ p : Params,
    (State.resetFor p).es = { opst := .bist, entropy := 0x0000#16, bistLatched := false } ∧
    (p.sseedWritable = true → (State.resetFor p).sseed = p.sseedResetBit) ∧
    (p.sseedWritable = false → (State.resetFor p).sseed = false) ∧
    (p.useedWritable = true → (State.resetFor p).useed = p.useedResetBit) ∧
    (p.useedWritable = false → (State.resetFor p).useed = false) ∧
    (State.resetFor p).priv = .m ∧ (State.resetFor p).virt = false ∧ (State.resetFor p).pc = p.resetVector ∧
    readReg (State.resetFor p) 0 = 0

/-- A step runs the decoded instruction: where, after the source's turn, the four bytes at an aligned `pc` decode to
`i`, the step is `exec i` on that state, with the source's turn after it where `exec i` has a next state; where it has
none the step stops as `exec i` does, and the machine is left as the source's turns before and after it make it
(41_seed_polling.md R118, 20_memory.md R52, R53; log 9, 13). -/
def Obligations.StepRunsTheDecodedInstruction : Prop :=
  ∀ (s : State) (b0 b1 b2 b3 : Byte) (i : Instr), s.pc.toNat % 4 = 0 → s.pc.toNat < 2 ^ s.params.xlen.bits →
    readByte s.mem s.pc.toNat = some b0 → readByte s.mem (s.pc.toNat + 1) = some b1 →
    readByte s.mem (s.pc.toNat + 2) = some b2 → readByte s.mem (s.pc.toNat + 3) = some b3 →
    decode [b0, b1, b2, b3] = .ok (i, []) →
    (∀ t, exec i (esPhase s) = .next t → step s = .next (esPhase t) ∧ stateAfter s = esPhase t) ∧
    (∀ r, exec i (esPhase s) = .fault r → step s = .fault r ∧ stateAfter s = esPhase (esPhase s)) ∧
    (∀ r, exec i (esPhase s) = .refused r → step s = .refused r ∧ stateAfter s = esPhase (esPhase s))

/-- A placed instruction word is the one the very next step runs, between the source's two turns, for every well-formed
instruction and every state whose `pc` is aligned and in the address space (20_memory.md R52; log 9, 12). -/
def Obligations.PlacedInstructionRunsNext : Prop :=
  ∀ (s : State) (i : Instr), WellFormed i → s.pc.toNat % 4 = 0 → s.pc.toNat < 2 ^ s.params.xlen.bits →
    step (s.withFetchWord 32 (encode i).toNat) =
      closingTurn (exec i (esPhase (s.withFetchWord 32 (encode i).toNat)))

/-- Where a step stops without an instruction: a misaligned `pc` is refused (20_memory.md R53), an aligned one outside
the address space is a fault, and with no byte at an aligned `pc` the run is completed where that is the address just
past the program text, modulo 2^XLEN, and is a fetch fault elsewhere; so is a word whose first byte is listed and
another is not (70_reset_and_hazards.md R215; the faults are the model's: log 11 to 13). -/
def Obligations.StepStopsWithoutAnInstruction : Prop :=
  ∀ s : State,
    (s.pc.toNat % 4 ≠ 0 → step s = .refused (.pcMisaligned s.pc)) ∧
    (s.pc.toNat % 4 = 0 → s.pc.toNat < 2 ^ s.params.xlen.bits → readByte s.mem s.pc.toNat = none →
      (∀ a, textEnd s.mem = some a → a % 2 ^ s.params.xlen.bits = s.pc.toNat → step s = .fault (.completed s.pc)) ∧
      ((∀ a, textEnd s.mem = some a → a % 2 ^ s.params.xlen.bits ≠ s.pc.toNat) →
        step s = .fault (.fetchUnwritten s.pc.toNat))) ∧
    (s.pc.toNat % 4 = 0 → 2 ^ s.params.xlen.bits ≤ s.pc.toNat →
      step s = .fault (.fetchOutsideSpace s.pc.toNat)) ∧
    (s.pc.toNat % 4 = 0 → s.pc.toNat < 2 ^ s.params.xlen.bits → ∀ b, readByte s.mem s.pc.toNat = some b →
      (readByte s.mem (s.pc.toNat + 1) = none ∨ readByte s.mem (s.pc.toNat + 2) = none ∨
        readByte s.mem (s.pc.toNat + 3) = none) →
      step s = .fault (.fetchUnwritten s.pc.toNat))

/-- A byte written to the program text is read back, and every other address reads as before (00_scope.md R7). -/
def Obligations.MemoryReadAfterWrite : Prop :=
  ∀ (m : Memory) (addr a : Nat) (b : Byte), Memory.wf m →
    readByte (writeByte addr b m) a = if a = addr then some b else readByte m a

/-! The polls of a run (41_seed_polling.md). -/

/-- The polls of `step` are those the traces speak of: `n` successive polling steps return the words of `pollTrace`; a step
that fetches a permitted poll `i` goes on and is that poll between the source's two turns, its word of a legal form, with
the status the source has then, delivered in the `rd` that `i` names and in no other register (nowhere where that is
`x0`); and in a run of any instructions, `DEAD` follows `DEAD` at every later poll (41_seed_polling.md R110, R113, R121, R122; the turns of the source about each step are log 9's). -/
def Obligations.PollingStepsReturnThePollTrace : Prop :=
  (∀ (n : Nat) (s : State), (∀ m, m < n → StepPolls (stateAt s m)) →
    pollTrace n s = (List.range n).map (fun m => polledWord (stateAt s m))) ∧
  (∀ (s : State) (bytes rest : List Byte) (i : Instr), fetch (esPhase s) = .next bytes → decode bytes = .ok (i, rest) →
    csrOf i = 0x015 → isReadWrite i = true → MayPoll (esPhase s) →
    SeedWordForm (polledWord s) ∧ statusOfWord (polledWord s) = (esPhase s).es.opst ∧
      ∃ u, step s = .next (esPhase u) ∧ PollResult (rdOf i) (esPhase s) u ∧
        ∀ r : Reg, readReg (esPhase u) r = if r = rdOf i ∧ r ≠ 0 then zext32 (polledWord s) else readReg s r) ∧
  (∀ (s : State) (m k : Nat), m ≤ k → StepPolls (stateAt s m) → StepPolls (stateAt s k) →
    statusOfWord (polledWord (stateAt s m)) = .dead → statusOfWord (polledWord (stateAt s k)) = .dead)
end

