-- ==== Sys2Proof/Laws/Bits.lean ====
section
/-! SUPPORT. What clipping, zero-extension and the two bits of `mseccfg` are, once, in numbers and in bits. -/

namespace Sys2Proof.Machine

/-- Clipping is arithmetic modulo 2^XLEN. -/
theorem clip_toNat (x : Xlen) (v : Word) : (clip x v).toNat = v.toNat % 2 ^ x.bits := by
  cases x
  · simp only [clip, Xlen.bits, BitVec.toNat_setWidth]; omega
  · simp only [clip, Xlen.bits]; omega

/-- A clipped value is an `XLEN`-bit value. -/
theorem clip_lt (x : Xlen) (v : Word) : (clip x v).toNat < 2 ^ x.bits := by
  rw [clip_toNat]; exact Nat.mod_lt _ (Nat.two_pow_pos _)

/-- An `XLEN`-bit value is its own clipping. -/
theorem clip_of_lt (x : Xlen) (v : Word) (h : v.toNat < 2 ^ x.bits) : clip x v = v := by
  apply BitVec.eq_of_toNat_eq; rw [clip_toNat, Nat.mod_eq_of_lt h]

/-- A zero-extended 32-bit word is an `XLEN`-bit value on both bases. -/
theorem clip_zext32 (x : Xlen) (w : BitVec 32) : clip x (zext32 w) = zext32 w := by
  apply clip_of_lt
  have : w.toNat < 2 ^ 32 := w.isLt
  cases x <;> simp only [zext32, Xlen.bits, BitVec.toNat_setWidth] <;> omega

/-- Clipping keeps divisibility by 4. -/
theorem clip_aligned (x : Xlen) (v : Word) (h : v.toNat % 4 = 0) : (clip x v).toNat % 4 = 0 := by
  rw [clip_toNat]; cases x <;> simp only [Xlen.bits] <;> omega

/-- The value read from `mseccfg` is an `XLEN`-bit value. -/
theorem clip_mseccfgRead (x : Xlen) (s : State) : clip x (mseccfgRead s) = mseccfgRead s := by
  unfold mseccfgRead; cases s.sseed <;> cases s.useed <;> cases x <;> decide

/-- Bit by bit, what `mseccfg` reads as (43_access_control.md R163). -/
theorem mseccfgRead_bit (s : State) (k : Nat) :
    (mseccfgRead s).getLsbD k = ((decide (k = 9) && s.sseed) || (decide (k = 8) && s.useed)) := by
  by_cases h : k < 10
  · unfold mseccfgRead
    cases s.sseed <;> cases s.useed <;> (interval_cases k <;> decide)
  · have h9 : k ≠ 9 := by omega
    have h8 : k ≠ 8 := by omega
    have hk : mseccfgRead s < 1024#64 := by
      unfold mseccfgRead; cases s.sseed <;> cases s.useed <;> decide
    have hz : (mseccfgRead s).getLsbD k = false := by
      rw [BitVec.getLsbD]
      apply Nat.testBit_lt_two_pow
      have h1 : (mseccfgRead s).toNat < 2 ^ 10 := by simpa [BitVec.lt_def] using hk
      exact lt_of_lt_of_le h1 (Nat.pow_le_pow_right (by decide) (by omega))
    simp [hz, h9, h8]

/-- The base of a trap vector is aligned. -/
theorem tvecBase_aligned (x : Xlen) (v : Word) : (tvecBase x v).toNat % 4 = 0 := by
  apply clip_aligned
  have h : (v &&& ~~~3#64).toNat % 2 ^ 2 = 0 := by
    rw [BitVec.toNat_and]
    apply Nat.eq_of_testBit_eq
    intro i
    rw [Nat.testBit_mod_two_pow, Nat.testBit_and]
    by_cases hi : i < 2
    · have : (~~~3#64).toNat.testBit i = false := by interval_cases i <;> decide
      rw [this]; simp
    · simp [hi]
  simpa using h

end Sys2Proof.Machine
end

