-- ==== Sys2Proof/Laws/Encoding.lean ====
section
/-! SUPPORT. The fields of a packed word are the fields it was packed from (spec/30_encoding.md R71). -/

namespace Sys2Proof

/-- An appended vector as a number. -/
theorem toNat_append_eq {m n : Nat} (x : BitVec m) (y : BitVec n) :
    (x ++ y).toNat = x.toNat * 2 ^ n + y.toNat := by
  rw [BitVec.toNat_append, ← Nat.shiftLeft_add_eq_or_of_lt y.isLt, Nat.shiftLeft_eq]

/-- A packed word as a number: five fields side by side. -/
theorem packFields_toNat (csr : Nat) (src : BitVec 5) (f : BitVec 3) (rd : Reg) :
    (packFields csr src f rd).toNat =
      (((csr % 4096 * 32 + src.toNat) * 8 + f.toNat) * 32 + rd.val) * 128 + 0x73 := by
  have hrd : (fieldOfReg rd).toNat = rd.val := by
    have := rd.isLt
    simp only [fieldOfReg, BitVec.toNat_ofNat]; omega
  show (BitVec.ofNat 12 csr ++ src ++ f ++ fieldOfReg rd ++ systemOpcode).toNat = _
  rw [toNat_append_eq, toNat_append_eq, toNat_append_eq, toNat_append_eq, hrd, BitVec.toNat_ofNat]
  rfl

/-- A field as a number. -/
theorem extract_toNat (w : BitVec 32) (s n : Nat) : (w.extractLsb' s n).toNat = w.toNat / 2 ^ s % 2 ^ n := by
  rw [BitVec.extractLsb'_toNat, Nat.shiftRight_eq_div_pow]

variable (csr : Nat) (src : BitVec 5) (f : BitVec 3) (rd : Reg)

theorem opcodeField_packFields : opcodeField (packFields csr src f rd) = systemOpcode := by
  apply BitVec.eq_of_toNat_eq
  have := rd.isLt
  rw [opcodeField, extract_toNat, packFields_toNat]
  show _ = 0x73
  omega

theorem rdField_packFields : rdField (packFields csr src f rd) = fieldOfReg rd := by
  apply BitVec.eq_of_toNat_eq
  have := rd.isLt
  rw [rdField, extract_toNat, packFields_toNat, fieldOfReg, BitVec.toNat_ofNat]
  omega

theorem funct3Field_packFields : funct3Field (packFields csr src f rd) = f := by
  apply BitVec.eq_of_toNat_eq
  have := rd.isLt
  have := f.isLt
  rw [funct3Field, extract_toNat, packFields_toNat]
  omega

theorem srcField_packFields : srcField (packFields csr src f rd) = src := by
  apply BitVec.eq_of_toNat_eq
  have := rd.isLt
  have := f.isLt
  have := src.isLt
  rw [srcField, extract_toNat, packFields_toNat]
  omega

theorem csrField_packFields (h : csr < 4096) : csrField (packFields csr src f rd) = csr := by
  have := rd.isLt
  have := f.isLt
  have := src.isLt
  rw [csrField, extract_toNat, packFields_toNat]
  omega

end Sys2Proof
end

