-- ==== Sys2Proof/Laws/State.lean ====
section
/-! SUPPORT. One lemma for each field of each state update, so that no later proof unfolds a record update. -/

namespace Sys2Proof.Machine

/-! `advancePc`. -/

@[simp] theorem advancePc_params (s : State) : (advancePc s).params = s.params := rfl
@[simp] theorem advancePc_regs (s : State) : (advancePc s).regs = s.regs := rfl
@[simp] theorem advancePc_pc (s : State) : (advancePc s).pc = nextPc s := rfl
@[simp] theorem advancePc_priv (s : State) : (advancePc s).priv = s.priv := rfl
@[simp] theorem advancePc_virt (s : State) : (advancePc s).virt = s.virt := rfl
@[simp] theorem advancePc_sseed (s : State) : (advancePc s).sseed = s.sseed := rfl
@[simp] theorem advancePc_useed (s : State) : (advancePc s).useed = s.useed := rfl
@[simp] theorem advancePc_es (s : State) : (advancePc s).es = s.es := rfl
@[simp] theorem advancePc_trap (s : State) : (advancePc s).trap = s.trap := rfl
@[simp] theorem advancePc_mem (s : State) : (advancePc s).mem = s.mem := rfl
@[simp] theorem advancePc_env (s : State) : (advancePc s).env = s.env := rfl

/-! `writeReg`: only the registers can change. -/

@[simp] theorem writeReg_params (r : Reg) (v : Word) (s : State) : (writeReg r v s).params = s.params := by
  unfold writeReg; split <;> rfl
@[simp] theorem writeReg_pc (r : Reg) (v : Word) (s : State) : (writeReg r v s).pc = s.pc := by
  unfold writeReg; split <;> rfl
@[simp] theorem writeReg_priv (r : Reg) (v : Word) (s : State) : (writeReg r v s).priv = s.priv := by
  unfold writeReg; split <;> rfl
@[simp] theorem writeReg_virt (r : Reg) (v : Word) (s : State) : (writeReg r v s).virt = s.virt := by
  unfold writeReg; split <;> rfl
@[simp] theorem writeReg_sseed (r : Reg) (v : Word) (s : State) : (writeReg r v s).sseed = s.sseed := by
  unfold writeReg; split <;> rfl
@[simp] theorem writeReg_useed (r : Reg) (v : Word) (s : State) : (writeReg r v s).useed = s.useed := by
  unfold writeReg; split <;> rfl
@[simp] theorem writeReg_es (r : Reg) (v : Word) (s : State) : (writeReg r v s).es = s.es := by
  unfold writeReg; split <;> rfl
@[simp] theorem writeReg_trap (r : Reg) (v : Word) (s : State) : (writeReg r v s).trap = s.trap := by
  unfold writeReg; split <;> rfl
@[simp] theorem writeReg_mem (r : Reg) (v : Word) (s : State) : (writeReg r v s).mem = s.mem := by
  unfold writeReg; split <;> rfl
@[simp] theorem writeReg_env (r : Reg) (v : Word) (s : State) : (writeReg r v s).env = s.env := by
  unfold writeReg; split <;> rfl

/-! `mseccfgWrite`: only the two access bits. -/

@[simp] theorem mseccfgWrite_params (v : Word) (s : State) : (mseccfgWrite v s).params = s.params := rfl
@[simp] theorem mseccfgWrite_regs (v : Word) (s : State) : (mseccfgWrite v s).regs = s.regs := rfl
@[simp] theorem mseccfgWrite_pc (v : Word) (s : State) : (mseccfgWrite v s).pc = s.pc := rfl
@[simp] theorem mseccfgWrite_priv (v : Word) (s : State) : (mseccfgWrite v s).priv = s.priv := rfl
@[simp] theorem mseccfgWrite_virt (v : Word) (s : State) : (mseccfgWrite v s).virt = s.virt := rfl
@[simp] theorem mseccfgWrite_sseed (v : Word) (s : State) : (mseccfgWrite v s).sseed = (s.params.sseedWritable && v.getLsbD 9) := rfl
@[simp] theorem mseccfgWrite_useed (v : Word) (s : State) : (mseccfgWrite v s).useed = (s.params.useedWritable && v.getLsbD 8) := rfl
@[simp] theorem mseccfgWrite_es (v : Word) (s : State) : (mseccfgWrite v s).es = s.es := rfl
@[simp] theorem mseccfgWrite_trap (v : Word) (s : State) : (mseccfgWrite v s).trap = s.trap := rfl
@[simp] theorem mseccfgWrite_mem (v : Word) (s : State) : (mseccfgWrite v s).mem = s.mem := rfl
@[simp] theorem mseccfgWrite_env (v : Word) (s : State) : (mseccfgWrite v s).env = s.env := rfl

/-! `seedPoll`: only the entropy source and the count of draws. -/

@[simp] theorem seedPoll_params (s : State) : ((seedPoll s).2).params = s.params := rfl
@[simp] theorem seedPoll_regs (s : State) : ((seedPoll s).2).regs = s.regs := rfl
@[simp] theorem seedPoll_pc (s : State) : ((seedPoll s).2).pc = s.pc := rfl
@[simp] theorem seedPoll_priv (s : State) : ((seedPoll s).2).priv = s.priv := rfl
@[simp] theorem seedPoll_virt (s : State) : ((seedPoll s).2).virt = s.virt := rfl
@[simp] theorem seedPoll_sseed (s : State) : ((seedPoll s).2).sseed = s.sseed := rfl
@[simp] theorem seedPoll_useed (s : State) : ((seedPoll s).2).useed = s.useed := rfl
@[simp] theorem seedPoll_es (s : State) : ((seedPoll s).2).es = pollEs s.es (pollDraw s) := rfl
@[simp] theorem seedPoll_trap (s : State) : ((seedPoll s).2).trap = s.trap := rfl
@[simp] theorem seedPoll_mem (s : State) : ((seedPoll s).2).mem = s.mem := rfl
@[simp] theorem seedPoll_env (s : State) : ((seedPoll s).2).env = consumeDraw s.env := rfl

@[simp] theorem seedPoll_word (s : State) : (seedPoll s).1 = seedWord s.es (pollDraw s) := rfl

/-! `esPhase`: only the entropy source and the count of its turns. -/

@[simp] theorem esPhase_params (s : State) : (esPhase s).params = s.params := rfl
@[simp] theorem esPhase_regs (s : State) : (esPhase s).regs = s.regs := rfl
@[simp] theorem esPhase_pc (s : State) : (esPhase s).pc = s.pc := rfl
@[simp] theorem esPhase_priv (s : State) : (esPhase s).priv = s.priv := rfl
@[simp] theorem esPhase_virt (s : State) : (esPhase s).virt = s.virt := rfl
@[simp] theorem esPhase_sseed (s : State) : (esPhase s).sseed = s.sseed := rfl
@[simp] theorem esPhase_useed (s : State) : (esPhase s).useed = s.useed := rfl
@[simp] theorem esPhase_es (s : State) : (esPhase s).es = runEvents s.params (nextEvents s) s.es := rfl
@[simp] theorem esPhase_trap (s : State) : (esPhase s).trap = s.trap := rfl
@[simp] theorem esPhase_mem (s : State) : (esPhase s).mem = s.mem := rfl
@[simp] theorem esPhase_env (s : State) : (esPhase s).env = consumeEvents s.env := rfl

@[simp] theorem consumeEvents_polls (e : Env) : (consumeEvents e).polls = e.polls := rfl
@[simp] theorem consumeEvents_pollScript (e : Env) : (consumeEvents e).pollScript = e.pollScript := rfl
@[simp] theorem consumeEvents_ticks (e : Env) : (consumeEvents e).ticks = e.ticks + 1 := rfl
@[simp] theorem consumeEvents_esScript (e : Env) : (consumeEvents e).esScript = e.esScript.drop 1 := rfl

/-! `enterTrap`: the privilege, `V`, `pc` and the trap registers. -/

@[simp] theorem enterTrap_params (e : Exception) (w : BitVec 32) (s : State) : (enterTrap e w s).params = s.params := by
  unfold enterTrap; split <;> rfl
@[simp] theorem enterTrap_regs (e : Exception) (w : BitVec 32) (s : State) : (enterTrap e w s).regs = s.regs := by
  unfold enterTrap; split <;> rfl
@[simp] theorem enterTrap_sseed (e : Exception) (w : BitVec 32) (s : State) : (enterTrap e w s).sseed = s.sseed := by
  unfold enterTrap; split <;> rfl
@[simp] theorem enterTrap_useed (e : Exception) (w : BitVec 32) (s : State) : (enterTrap e w s).useed = s.useed := by
  unfold enterTrap; split <;> rfl
@[simp] theorem enterTrap_es (e : Exception) (w : BitVec 32) (s : State) : (enterTrap e w s).es = s.es := by
  unfold enterTrap; split <;> rfl
@[simp] theorem enterTrap_mem (e : Exception) (w : BitVec 32) (s : State) : (enterTrap e w s).mem = s.mem := by
  unfold enterTrap; split <;> rfl
@[simp] theorem enterTrap_env (e : Exception) (w : BitVec 32) (s : State) : (enterTrap e w s).env = s.env := by
  unfold enterTrap; split <;> rfl

/-! `returnFromTrap`: the same fields. -/

@[simp] theorem returnFromTrap_params (l : TrapLevel) (s : State) : (returnFromTrap l s).params = s.params := by
  cases l <;> rfl
@[simp] theorem returnFromTrap_regs (l : TrapLevel) (s : State) : (returnFromTrap l s).regs = s.regs := by
  cases l <;> rfl
@[simp] theorem returnFromTrap_sseed (l : TrapLevel) (s : State) : (returnFromTrap l s).sseed = s.sseed := by
  cases l <;> rfl
@[simp] theorem returnFromTrap_useed (l : TrapLevel) (s : State) : (returnFromTrap l s).useed = s.useed := by
  cases l <;> rfl
@[simp] theorem returnFromTrap_es (l : TrapLevel) (s : State) : (returnFromTrap l s).es = s.es := by
  cases l <;> rfl
@[simp] theorem returnFromTrap_mem (l : TrapLevel) (s : State) : (returnFromTrap l s).mem = s.mem := by
  cases l <;> rfl
@[simp] theorem returnFromTrap_env (l : TrapLevel) (s : State) : (returnFromTrap l s).env = s.env := by
  cases l <;> rfl

/-! `withFetchWord`: only the memory. -/

@[simp] theorem withFetchWord_params (s : State) (n w : Nat) : (s.withFetchWord n w).params = s.params := rfl
@[simp] theorem withFetchWord_regs (s : State) (n w : Nat) : (s.withFetchWord n w).regs = s.regs := rfl
@[simp] theorem withFetchWord_pc (s : State) (n w : Nat) : (s.withFetchWord n w).pc = s.pc := rfl
@[simp] theorem withFetchWord_priv (s : State) (n w : Nat) : (s.withFetchWord n w).priv = s.priv := rfl
@[simp] theorem withFetchWord_virt (s : State) (n w : Nat) : (s.withFetchWord n w).virt = s.virt := rfl
@[simp] theorem withFetchWord_sseed (s : State) (n w : Nat) : (s.withFetchWord n w).sseed = s.sseed := rfl
@[simp] theorem withFetchWord_useed (s : State) (n w : Nat) : (s.withFetchWord n w).useed = s.useed := rfl
@[simp] theorem withFetchWord_es (s : State) (n w : Nat) : (s.withFetchWord n w).es = s.es := rfl
@[simp] theorem withFetchWord_trap (s : State) (n w : Nat) : (s.withFetchWord n w).trap = s.trap := rfl
@[simp] theorem withFetchWord_mem (s : State) (n w : Nat) : (s.withFetchWord n w).mem = writeBytes s.pc.toNat (tableBytes n w) s.mem := rfl
@[simp] theorem withFetchWord_env (s : State) (n w : Nat) : (s.withFetchWord n w).env = s.env := rfl

/-! `resetFor`. -/

@[simp] theorem resetFor_params (p : Params) : (State.resetFor p).params = p := rfl
@[simp] theorem resetFor_pc (p : Params) : (State.resetFor p).pc = p.resetVector := rfl
@[simp] theorem resetFor_priv (p : Params) : (State.resetFor p).priv = .m := rfl
@[simp] theorem resetFor_virt (p : Params) : (State.resetFor p).virt = false := rfl
@[simp] theorem resetFor_sseed (p : Params) : (State.resetFor p).sseed = p.sseedReset := rfl
@[simp] theorem resetFor_useed (p : Params) : (State.resetFor p).useed = p.useedReset := rfl
@[simp] theorem resetFor_es (p : Params) : (State.resetFor p).es = .reset := rfl
@[simp] theorem resetFor_trap (p : Params) : (State.resetFor p).trap = .reset := rfl
@[simp] theorem resetFor_mem (p : Params) : (State.resetFor p).mem = [] := rfl
@[simp] theorem resetFor_env (p : Params) : (State.resetFor p).env = .reset := rfl

/-! Registers: what a read gives after each update (10_state.md R20). -/

@[simp] theorem readReg_zero (s : State) : readReg s 0 = 0 := rfl

/-- Reading depends on the registers alone. -/
theorem readReg_congr {s t : State} (h : t.regs = s.regs) (r : Reg) : readReg t r = readReg s r := by
  unfold readReg; rw [h]

/-- A write is read back, clipped to `XLEN` bits, by its own register alone; `x0` reads zero. -/
theorem readReg_writeReg (r k : Reg) (v : Word) (s : State) :
    readReg (writeReg r v s) k = if k = r ∧ k ≠ 0 then clip s.params.xlen v else readReg s k := by
  unfold readReg writeReg
  by_cases hk : k = 0
  · simp [hk]
  · by_cases hr : r = 0
    · subst hr; simp [hk]
    · by_cases h : k = r
      · subst h; simp [hk]
      · have hv : r.val ≠ k.val := fun e => h (Fin.ext e.symm)
        simp [hk, hr, h, Vector.getElem_set_ne _ _ hv]

@[simp] theorem readReg_advancePc (s : State) (k : Reg) : readReg (advancePc s) k = readReg s k := rfl
@[simp] theorem readReg_mseccfgWrite (v : Word) (s : State) (k : Reg) :
    readReg (mseccfgWrite v s) k = readReg s k := rfl
@[simp] theorem readReg_seedPoll (s : State) (k : Reg) : readReg (seedPoll s).2 k = readReg s k := rfl
@[simp] theorem readReg_esPhase (s : State) (k : Reg) : readReg (esPhase s) k = readReg s k := rfl
@[simp] theorem readReg_enterTrap (e : Exception) (w : BitVec 32) (s : State) (k : Reg) :
    readReg (enterTrap e w s) k = readReg s k := readReg_congr (enterTrap_regs e w s) k
@[simp] theorem readReg_resetFor (p : Params) (k : Reg) : readReg (State.resetFor p) k = 0 := by
  unfold readReg State.resetFor; split <;> simp

end Sys2Proof.Machine
end

