-- ==== Sys2Proof/Laws/Exec.lean ====
section
/-! SUPPORT. What each shared operation can do, said once: `execCSR`, `takeException`, `trapLevel`, `fetch`, `step`
and the entropy source's events. -/

namespace Sys2Proof.Machine

/-- Every instruction is `ExecCSR` with its own operands (40_csr_instructions.md R90). -/
theorem exec_eq_execCSR (i : Instr) (s : State) :
    exec i s = execCSR (opOf i) (rdOf i) (csrOf i) (srcOf i) (encode i) s := by
  cases i <;> rfl

/-- Every access to `seed` is decided by the access check (43_access_control.md R160). -/
theorem exec_seed (i : Instr) (s : State) (h : csrOf i = seedAddr) :
    exec i s = match seedCheck s (isReadWrite i) with
      | .illegal => takeException .illegalInstruction (encode i) s
      | .virtual => takeException .virtualInstruction (encode i) s
      | .ok => .next (completePoll (rdOf i) s) := by
  rw [exec_eq_execCSR, execCSR, if_pos h]
  rfl

/-- Where a next state of `execCSR` comes from: a poll, an `mseccfg` access in M mode, or a trap entry. -/
theorem execCSR_next_cases {op : CsrOp} {rd : Reg} {csr : Nat} {src : CsrSrc} {w : BitVec 32} {s t : State}
    (h : execCSR op rd csr src w s = .next t) :
    (csr = seedAddr ∧ seedCheck s (isWrite op src) = .ok ∧ t = completePoll rd s) ∨
    (csr ≠ seedAddr ∧ csr = s.params.mseccfgAddr ∧ s.priv = .m ∧ t = completeMseccfg op rd src s) ∨
    (s.params.trapMode = .privileged ∧ ∃ e, t = enterTrap e w s ∧
      ((csr = seedAddr ∧ seedCheck s (isWrite op src) ≠ .ok) ∨
        (csr ≠ seedAddr ∧ csr = s.params.mseccfgAddr ∧ s.priv ≠ .m))) := by
  unfold execCSR takeException at h
  split at h
  · rename_i hc
    split at h <;> rename_i hk
    · split at h <;> rename_i hm
      · cases h
      · cases h; exact .inr (.inr ⟨hm, _, rfl, .inl ⟨hc, by simp [hk]⟩⟩)
    · split at h <;> rename_i hm
      · cases h
      · cases h; exact .inr (.inr ⟨hm, _, rfl, .inl ⟨hc, by simp [hk]⟩⟩)
    · cases h; exact .inl ⟨hc, hk, rfl⟩
  · rename_i hc
    split at h
    · rename_i ha
      split at h
      · rename_i hp
        cases h; exact .inr (.inl ⟨hc, ha, hp, rfl⟩)
      · rename_i hp
        split at h <;> rename_i hm
        · cases h
        · cases h; exact .inr (.inr ⟨hm, _, rfl, .inr ⟨hc, ha, hp⟩⟩)
    · cases h

/-- Where a next state of an instruction comes from. -/
theorem exec_next_cases {i : Instr} {s t : State} (h : exec i s = .next t) :
    (csrOf i = seedAddr ∧ seedCheck s (isReadWrite i) = .ok ∧ t = completePoll (rdOf i) s) ∨
    (csrOf i ≠ seedAddr ∧ csrOf i = s.params.mseccfgAddr ∧ s.priv = .m ∧
      t = completeMseccfg (opOf i) (rdOf i) (srcOf i) s) ∨
    (s.params.trapMode = .privileged ∧ ∃ e, t = enterTrap e (encode i) s ∧
      ((csrOf i = seedAddr ∧ seedCheck s (isReadWrite i) ≠ .ok) ∨
        (csrOf i ≠ seedAddr ∧ csrOf i = s.params.mseccfgAddr ∧ s.priv ≠ .m))) := by
  rw [exec_eq_execCSR] at h; exact execCSR_next_cases h

/-- When an access to `seed` is permitted. -/
theorem seedCheck_ok_iff (s : State) (w : Bool) :
    seedCheck s w = .ok ↔ s.params.zkr = true ∧ w = true ∧ s.virt = false ∧
      (s.priv = .m ∨ (s.priv = .s ∧ s.sseed = true) ∨ (s.priv = .u ∧ s.useed = true)) := by
  unfold seedCheck seedAccess
  cases s.params.zkr <;> cases w <;> cases s.virt <;> cases s.priv <;> cases s.sseed <;> cases s.useed <;> simp

/-- When an access to `seed` raises the virtual instruction exception. -/
theorem seedCheck_virtual_iff (s : State) (w : Bool) :
    seedCheck s w = .virtual ↔ s.params.zkr = true ∧ w = true ∧ s.virt = true ∧ s.sseed = true := by
  unfold seedCheck seedAccess
  cases s.params.zkr <;> cases w <;> cases s.virt <;> cases s.priv <;> cases s.sseed <;> cases s.useed <;> simp

/-- A completed poll: the registers. -/
theorem readReg_completePoll (rd k : Reg) (s : State) :
    readReg (completePoll rd s) k =
      if k = rd ∧ k ≠ 0 then zext32 (seedWord s.es (pollDraw s)) else readReg s k := by
  simp [completePoll, readReg_writeReg, clip_zext32]

/-- A completed poll: the entropy source and the draws. -/
@[simp] theorem completePoll_es (rd : Reg) (s : State) : (completePoll rd s).es = pollEs s.es (pollDraw s) := by
  simp [completePoll]
@[simp] theorem completePoll_env (rd : Reg) (s : State) : (completePoll rd s).env = consumeDraw s.env := by
  simp [completePoll]
@[simp] theorem completePoll_pc (rd : Reg) (s : State) : (completePoll rd s).pc = nextPc s := by
  simp [completePoll, nextPc]
@[simp] theorem completePoll_params (rd : Reg) (s : State) : (completePoll rd s).params = s.params := by
  simp [completePoll]
@[simp] theorem completePoll_priv (rd : Reg) (s : State) : (completePoll rd s).priv = s.priv := by
  simp [completePoll]
@[simp] theorem completePoll_virt (rd : Reg) (s : State) : (completePoll rd s).virt = s.virt := by
  simp [completePoll]
@[simp] theorem completePoll_sseed (rd : Reg) (s : State) : (completePoll rd s).sseed = s.sseed := by
  simp [completePoll]
@[simp] theorem completePoll_useed (rd : Reg) (s : State) : (completePoll rd s).useed = s.useed := by
  simp [completePoll]
@[simp] theorem completePoll_trap (rd : Reg) (s : State) : (completePoll rd s).trap = s.trap := by
  simp [completePoll]
@[simp] theorem completePoll_mem (rd : Reg) (s : State) : (completePoll rd s).mem = s.mem := by
  simp [completePoll]

/-- A completed `mseccfg` access: the registers. -/
theorem readReg_completeMseccfg (op : CsrOp) (rd k : Reg) (src : CsrSrc) (s : State) :
    readReg (completeMseccfg op rd src s) k = if k = rd ∧ k ≠ 0 then mseccfgRead s else readReg s k := by
  unfold completeMseccfg; split <;> simp [readReg_writeReg, clip_mseccfgRead]

/-- A completed `mseccfg` access: the bit `sseed`. -/
theorem completeMseccfg_sseed (op : CsrOp) (rd : Reg) (src : CsrSrc) (s : State) :
    (completeMseccfg op rd src s).sseed =
      if isWrite op src then s.params.sseedWritable && (newValue op (mseccfgRead s) (srcValue s src)).getLsbD 9
      else s.sseed := by
  unfold completeMseccfg; split <;> simp

/-- A completed `mseccfg` access: the bit `useed`. -/
theorem completeMseccfg_useed (op : CsrOp) (rd : Reg) (src : CsrSrc) (s : State) :
    (completeMseccfg op rd src s).useed =
      if isWrite op src then s.params.useedWritable && (newValue op (mseccfgRead s) (srcValue s src)).getLsbD 8
      else s.useed := by
  unfold completeMseccfg; split <;> simp

@[simp] theorem completeMseccfg_es (op : CsrOp) (rd : Reg) (src : CsrSrc) (s : State) :
    (completeMseccfg op rd src s).es = s.es := by
  unfold completeMseccfg; split <;> simp
@[simp] theorem completeMseccfg_env (op : CsrOp) (rd : Reg) (src : CsrSrc) (s : State) :
    (completeMseccfg op rd src s).env = s.env := by
  unfold completeMseccfg; split <;> simp
@[simp] theorem completeMseccfg_pc (op : CsrOp) (rd : Reg) (src : CsrSrc) (s : State) :
    (completeMseccfg op rd src s).pc = nextPc s := by
  unfold completeMseccfg; split <;> simp [nextPc]
@[simp] theorem completeMseccfg_params (op : CsrOp) (rd : Reg) (src : CsrSrc) (s : State) :
    (completeMseccfg op rd src s).params = s.params := by
  unfold completeMseccfg; split <;> simp
@[simp] theorem completeMseccfg_priv (op : CsrOp) (rd : Reg) (src : CsrSrc) (s : State) :
    (completeMseccfg op rd src s).priv = s.priv := by
  unfold completeMseccfg; split <;> simp
@[simp] theorem completeMseccfg_virt (op : CsrOp) (rd : Reg) (src : CsrSrc) (s : State) :
    (completeMseccfg op rd src s).virt = s.virt := by
  unfold completeMseccfg; split <;> simp
@[simp] theorem completeMseccfg_trap (op : CsrOp) (rd : Reg) (src : CsrSrc) (s : State) :
    (completeMseccfg op rd src s).trap = s.trap := by
  unfold completeMseccfg; split <;> simp
@[simp] theorem completeMseccfg_mem (op : CsrOp) (rd : Reg) (src : CsrSrc) (s : State) :
    (completeMseccfg op rd src s).mem = s.mem := by
  unfold completeMseccfg; split <;> simp

/-- What taking an exception answers. -/
theorem takeException_cases (e : Exception) (w : BitVec 32) (s : State) :
    (s.params.trapMode = .terminal ∧ takeException e w s = .fault (.trapped e s.pc w s.priv s.virt)) ∨
    (s.params.trapMode = .privileged ∧ takeException e w s = .next (enterTrap e w s)) := by
  unfold takeException; split <;> simp_all

/-- Which level takes a trap: M always exists; S/HS and VS need S mode, VS needs a virtual mode. -/
theorem trapLevel_cases (e : Exception) (s : State) :
    trapLevel e s = .m ∨
    (trapLevel e s = .s ∧ s.params.hasS = true ∧ s.priv ≠ .m) ∨
    (trapLevel e s = .vs ∧ s.params.hasS = true ∧ s.priv ≠ .m ∧ s.virt = true ∧ e = .illegalInstruction) := by
  unfold trapLevel
  split
  · exact .inl rfl
  · rename_i h
    push Not at h
    have hs : s.params.hasS = true := by simpa using h.2.1
    split
    · rename_i hv; exact .inr (.inr ⟨rfl, hs, h.1, hv.1, hv.2.1⟩)
    · exact .inr (.inl ⟨rfl, hs, h.1⟩)

/-- Where the bytes of a fetch come from. -/
theorem fetch_next {s : State} {bs : List Byte} (h : fetch s = .next bs) :
    s.pc.toNat % 4 = 0 ∧ s.pc.toNat < 2 ^ s.params.xlen.bits ∧ readBytes s.mem s.pc.toNat 4 = some bs := by
  unfold fetch at h
  split at h
  · cases h
  · rename_i ha
    split at h
    · cases h
    · rename_i hs
      split at h
      · rename_i hb; cases h; exact ⟨by omega, by omega, hb⟩
      · cases h

/-- Where a next state of `hartStep` comes from. -/
theorem hartStep_next {s t : State} (h : hartStep s = .next t) :
    ∃ bs i rest, fetch s = .next bs ∧ decode bs = .ok (i, rest) ∧ exec i s = .next t := by
  unfold hartStep at h
  split at h
  · rename_i bs hf
    split at h
    · rename_i i rest hd; exact ⟨bs, i, rest, hf, hd, h⟩
    · cases h
  · cases h
  · cases h

/-- Where a next state of `closingTurn` comes from: a next state, with the source's turn after it. -/
theorem closingTurn_next {o : Host.Outcome State Fault Refusal} {t : State} (h : closingTurn o = .next t) :
    ∃ u, o = .next u ∧ t = esPhase u := by
  cases o with
  | next u => cases h; exact ⟨u, rfl, rfl⟩
  | fault r => cases h
  | refused r => cases h

/-- Where a next state of `step` comes from: the entropy source's turn, one instruction, the source's turn again. -/
theorem step_next {s t : State} (h : step s = .next t) :
    ∃ bs i rest u, fetch (esPhase s) = .next bs ∧ decode bs = .ok (i, rest) ∧ exec i (esPhase s) = .next u ∧
      t = esPhase u := by
  obtain ⟨u, hu, ht⟩ := closingTurn_next h
  obtain ⟨bs, i, rest, hf, hd, he⟩ := hartStep_next hu
  exact ⟨bs, i, rest, u, hf, hd, he, ht⟩

/-- The state a step leaves: its next state, or the state it began in after two turns of the source. -/
theorem stateAfter_cases (s : State) :
    step s = .next (stateAfter s) ∨ ((∀ t, step s ≠ .next t) ∧ stateAfter s = esPhase (esPhase s)) := by
  unfold stateAfter
  cases h : step s with
  | next t => exact .inl rfl
  | fault r => exact .inr ⟨fun t => by simp, rfl⟩
  | refused r => exact .inr ⟨fun t => by simp, rfl⟩

/-- The transitions that `EsStep` admits, said once. -/
theorem esStep_cases {tr : EsTransition} {es es' : Es} (h : esStep tr es = some es') :
    (es.opst = .bist ∧ es.bistLatched = false ∧ tr = .toWait ∧ es' = { es with opst := .wait }) ∨
    (es.opst = .bist ∧ es.bistLatched = false ∧ ∃ w, tr = .toEs16 w ∧ es' = { es with opst := .es16, entropy := w }) ∨
    (es.opst = .bist ∧ tr = .toDead ∧ es' = { es with opst := .dead }) ∨
    (es.opst = .wait ∧ ∃ w, tr = .toEs16 w ∧ es' = { es with opst := .es16, entropy := w }) ∨
    (es.opst = .wait ∧ tr = .toBist ∧ es' = { es with opst := .bist, bistLatched := true }) ∨
    (es.opst = .wait ∧ tr = .toDead ∧ es' = { es with opst := .dead }) ∨
    (es.opst = .es16 ∧ tr = .toBist ∧ es' = { es with opst := .bist, entropy := 0, bistLatched := true }) ∨
    (es.opst = .es16 ∧ tr = .toDead ∧ es' = { es with opst := .dead, entropy := 0 }) := by
  obtain ⟨o, en, l⟩ := es
  cases o <;> cases tr <;> cases l <;> simp_all [esStep]

/-- An invariant of the entropy source that its own transitions and polls keep is kept by any list of events. -/
theorem runEvents_induction {P : Es → Prop} (p : Params)
    (hes : ∀ tr es es', P es → esStep tr es = some es' → P es')
    (hpoll : ∀ es d, p.esShared = true → P es → P (pollEs es d)) :
    ∀ (l : List EnvEvent) (es : Es), P es → P (runEvents p l es) := by
  intro l
  induction l with
  | nil => intro es h; exact h
  | cons ev rest ih =>
    intro es h
    apply ih
    cases ev with
    | es tr =>
      show P ((esStep tr es).getD es)
      cases hs : esStep tr es with
      | none => exact h
      | some es' => exact hes tr es es' h hs
    | otherHartPoll d =>
      show P (if p.esShared then pollEs es d else es)
      split
      · rename_i hsh; exact hpoll es d hsh h
      · exact h

end Sys2Proof.Machine
end

