-- ==== Sys2Proof/Laws/Memory.lean ====
section
/-! SUPPORT. Every memory operation keeps the canonical form. -/

namespace Sys2Proof.Machine

/-- What the canonical form says with no value at unlisted addresses: addresses strictly rise. -/
theorem memory_wf_iff (m : Memory) : Memory.wf m ↔ m.Pairwise (fun x y => x.1 < y.1) := by
  simp [Memory.wf, unlistedByte]

/-- A write lists its own address and no other new one. -/
theorem mem_writeByte {addr : Nat} {b : Byte} {m : Memory} {c : Host.Cell} (h : c ∈ writeByte addr b m) :
    c = (addr, b) ∨ c ∈ m := by
  induction m with
  | nil => simpa [writeByte] using h
  | cons d rest ih =>
    obtain ⟨a, x⟩ := d
    simp only [writeByte] at h
    split at h
    · simpa using h
    · split at h
      · rcases List.mem_cons.mp h with h | h
        · exact .inl h
        · exact .inr (List.mem_cons_of_mem _ h)
      · rcases List.mem_cons.mp h with h | h
        · exact .inr (h ▸ List.mem_cons_self)
        · exact (ih h).imp id (List.mem_cons_of_mem _)

/-- A one-byte write keeps the canonical form. -/
theorem writeByte_wf {m : Memory} (addr : Nat) (b : Byte) (h : Memory.wf m) : Memory.wf (writeByte addr b m) := by
  rw [memory_wf_iff] at *
  induction m with
  | nil => simp [writeByte]
  | cons d rest ih =>
    obtain ⟨a, x⟩ := d
    obtain ⟨hhead, hrest⟩ := List.pairwise_cons.mp h
    simp only [writeByte]
    split
    · rename_i hlt
      refine List.pairwise_cons.mpr ⟨fun c hc => ?_, h⟩
      rcases List.mem_cons.mp hc with rfl | hc
      · exact hlt
      · exact lt_trans hlt (hhead c hc)
    · split
      · rename_i heq
        subst heq
        exact List.pairwise_cons.mpr ⟨hhead, hrest⟩
      · refine List.pairwise_cons.mpr ⟨fun c hc => ?_, ih hrest⟩
        rcases mem_writeByte hc with rfl | hc
        · show a < addr
          omega
        · exact hhead c hc

/-- A write of any number of bytes keeps the canonical form. -/
theorem writeBytes_wf (bs : List Byte) {m : Memory} (addr : Nat) (h : Memory.wf m) :
    Memory.wf (writeBytes addr bs m) := by
  induction bs generalizing addr m with
  | nil => exact h
  | cons b bs ih => exact ih (addr + 1) (writeByte_wf addr b h)

/-- Placing an instruction word keeps the canonical form. -/
theorem withFetchWord_wf (s : State) (n w : Nat) (h : Memory.wf s.mem) : Memory.wf (s.withFetchWord n w).mem :=
  writeBytes_wf _ _ h

/-- Memory after reset has the canonical form. -/
theorem resetFor_mem_wf (p : Params) : Memory.wf (State.resetFor p).mem :=
  ⟨List.Pairwise.nil, by simp [State.resetFor]⟩

/-- The memory of `State.reset` has the canonical form. -/
theorem reset_mem_wf : Memory.wf State.reset.mem := resetFor_mem_wf _

end Sys2Proof.Machine
end

