-- ==== Sys2Proof/Laws/PerInstr.lean ====
section
/-! SUPPORT. The statements made instruction by instruction: the word of every instruction has the fixed bits of its
own row of spec/opcode_table.json and the 5-bit source field that decides its form (spec/30_encoding.md R73, R75). -/

namespace Sys2Proof.Laws.RowBits

open Sys2Proof.Machine

/-- `funct3` of the row (30_encoding.md R73). -/
def rowFunct3 : Instr → BitVec 3
  | .csrrw _ _ _ => 0b001#3
  | .csrrs _ _ _ => 0b010#3
  | .csrrc _ _ _ => 0b011#3
  | .csrrwi _ _ _ => 0b101#3
  | .csrrsi _ _ _ => 0b110#3
  | .csrrci _ _ _ => 0b111#3

/-- The fixed bits of the row stand in the word, and bits 19:15 are zero exactly where the source field is. -/
def Statement (i : Instr) : Prop :=
  opcodeField (encode i) = systemOpcode ∧ funct3Field (encode i) = rowFunct3 i ∧
    (WellFormed i → (srcField (encode i) = 0 ↔ fieldNonzero (srcOf i) = false))

/-- A register field is zero for `x0` alone. -/
theorem fieldOfReg_eq_zero (r : Reg) : fieldOfReg r = 0 ↔ fieldNonzero (.reg r) = false := by
  revert r; decide

/-- An immediate field is zero for 0 alone. -/
theorem immField_eq_zero {u : Nat} (h : u < 32) : BitVec.ofNat 5 u = 0 ↔ fieldNonzero (.imm u) = false := by
  simp only [fieldNonzero, decide_eq_false_iff_not, not_not]
  constructor
  · intro e
    have := congrArg BitVec.toNat e
    simp only [BitVec.toNat_ofNat, BitVec.ofNat_eq_ofNat] at this
    omega
  · rintro rfl; rfl

theorem csrrw (rd : Reg) (csr : Nat) (rs1 : Reg) : Statement (.csrrw rd csr rs1) :=
  ⟨opcodeField_packFields .., funct3Field_packFields ..,
    fun _ => by rw [encode, srcField_packFields]; exact fieldOfReg_eq_zero rs1⟩

theorem csrrs (rd : Reg) (csr : Nat) (rs1 : Reg) : Statement (.csrrs rd csr rs1) :=
  ⟨opcodeField_packFields .., funct3Field_packFields ..,
    fun _ => by rw [encode, srcField_packFields]; exact fieldOfReg_eq_zero rs1⟩

theorem csrrc (rd : Reg) (csr : Nat) (rs1 : Reg) : Statement (.csrrc rd csr rs1) :=
  ⟨opcodeField_packFields .., funct3Field_packFields ..,
    fun _ => by rw [encode, srcField_packFields]; exact fieldOfReg_eq_zero rs1⟩

/-- The immediate of a well-formed immediate form fits. -/
theorem uimm_lt {csr u : Nat} (h : (csrInRange csr && uimmInRange u) = true) : u < 32 := by
  rw [Bool.and_eq_true] at h
  simpa [uimmInRange] using h.2

theorem csrrwi (rd : Reg) (csr uimm : Nat) : Statement (.csrrwi rd csr uimm) :=
  ⟨opcodeField_packFields .., funct3Field_packFields ..,
    fun h => by rw [encode, srcField_packFields]; exact immField_eq_zero (uimm_lt h)⟩

theorem csrrsi (rd : Reg) (csr uimm : Nat) : Statement (.csrrsi rd csr uimm) :=
  ⟨opcodeField_packFields .., funct3Field_packFields ..,
    fun h => by rw [encode, srcField_packFields]; exact immField_eq_zero (uimm_lt h)⟩

theorem csrrci (rd : Reg) (csr uimm : Nat) : Statement (.csrrci rd csr uimm) :=
  ⟨opcodeField_packFields .., funct3Field_packFields ..,
    fun h => by rw [encode, srcField_packFields]; exact immField_eq_zero (uimm_lt h)⟩

end Sys2Proof.Laws.RowBits
end

