-- ==== Sys2Proof/Laws/Run.lean ====
section
/-! SUPPORT. The states of a run and its polls: what a polling step does, and a run that polls for ever, so that the
named assumption `EsEventuallyReady` speaks of runs that exist (spec/41_seed_polling.md R121; log 32). -/

namespace Sys2Proof.Machine

open Sys2Proof.Safety

@[simp] theorem stateAt_zero (s : State) : stateAt s 0 = s := rfl
@[simp] theorem stateAt_succ (s : State) (n : Nat) : stateAt s (n + 1) = stateAt (stateAfter s) n := rfl

/-- The last step of a longer run starts where the shorter one has come to. -/
theorem stateAt_add_one (s : State) (n : Nat) : stateAt s (n + 1) = stateAfter (stateAt s n) := by
  induction n generalizing s with
  | zero => rfl
  | succ n ih => exact ih (stateAfter s)

theorem stateAfter_of_next {s t : State} (h : step s = .next t) : stateAfter s = t := by
  simp only [stateAfter, h]

/-- An invariant that every step from it keeps, going on, holds along the whole run. -/
theorem stateAt_induction {P : State → Prop} (hstep : ∀ s, P s → ∃ t, step s = .next t ∧ P t) :
    ∀ (n : Nat) (s : State), P s → P (stateAt s n) := by
  intro n
  induction n with
  | zero => intro s h; exact h
  | succ n ih =>
    intro s h
    obtain ⟨t, ht, hp⟩ := hstep s h
    rw [stateAt_succ, stateAfter_of_next ht]
    exact ih t hp

/-- A fetched and decoded instruction is the step. -/
theorem step_of_fetch {s : State} {bytes rest : List Byte} {i : Instr} (hf : fetch (esPhase s) = .next bytes)
    (hd : decode bytes = .ok (i, rest)) : step s = closingTurn (exec i (esPhase s)) := by
  simp only [step, hartStep, hf, hd]

/-- A step that fetches a permitted poll completes it, into the `rd` of the instruction, between two turns of the
source. -/
theorem step_of_fetched_poll {s : State} {bytes rest : List Byte} {i : Instr}
    (hf : fetch (esPhase s) = .next bytes) (hd : decode bytes = .ok (i, rest)) (hc : csrOf i = seedAddr)
    (hw : isReadWrite i = true) (hm : MayPoll (esPhase s)) :
    step s = .next (esPhase (completePoll (rdOf i) (esPhase s))) := by
  rw [step_of_fetch hf hd, exec_seed i _ hc, (seedCheck_ok_iff _ _).2 ⟨hm.1, hw, hm.2.1, hm.2.2⟩]
  rfl

/-- A polling step completes the poll of the instruction it fetches. -/
theorem stepPolls_next {s : State} (h : StepPolls s) :
    ∃ rd, step s = .next (esPhase (completePoll rd (esPhase s))) := by
  obtain ⟨bytes, i, rest, hf, hd, hc, hw, hm⟩ := h
  exact ⟨rdOf i, step_of_fetched_poll hf hd hc hw hm⟩

/-! A run that polls for ever: in M mode of a composed model, `csrrw x0, seed, x0` and then `csrrs x0, seed, x0`, whose
illegal instruction exception goes back to the first. -/

/-- The two words in memory from address 0. -/
def loopText : Memory := writeBytes 0 (bytesOfWord 0x01501073#32 ++ bytesOfWord 0x01502073#32) []

/-- What the loop needs of a state; registers, source and draws are free. -/
structure InLoop (s : State) : Prop where
  xlen : s.params.xlen = .rv32
  zkr : s.params.zkr = true
  mode : s.params.trapMode = .privileged
  priv : s.priv = .m
  virt : s.virt = false
  tvec : s.trap.m.tvec = 0
  mem : s.mem = loopText
  pc : s.pc = 0 ∨ s.pc = 4

theorem InLoop.esPhase {s : State} (h : InLoop s) : InLoop (esPhase s) :=
  ⟨h.xlen, h.zkr, h.mode, h.priv, h.virt, h.tvec, h.mem, h.pc⟩

theorem InLoop.polls {s : State} (h : InLoop s) (hp : s.pc = 0) : StepPolls s := by
  refine ⟨bytesOfWord 0x01501073#32, .csrrw 0 0x015 0, [], ?_, rfl, rfl, rfl, h.zkr, h.virt, .inl h.priv⟩
  simp only [fetch, esPhase_pc, esPhase_params, esPhase_mem, h.xlen, h.mem, hp]
  rfl

theorem InLoop.next_at_poll {s : State} (h : InLoop s) (hp : s.pc = 0) :
    ∃ t, step s = .next t ∧ InLoop t ∧ t.pc = 4 := by
  obtain ⟨rd, hn⟩ := stepPolls_next (h.polls hp)
  have hpc : nextPc s = 4 := by simp only [nextPc, h.xlen, hp]; decide
  have hpc' : nextPc (Machine.esPhase s) = 4 := hpc
  refine ⟨_, hn, ⟨?_, ?_, ?_, ?_, ?_, ?_, ?_, .inr ?_⟩, ?_⟩ <;>
    simp [h.xlen, h.zkr, h.mode, h.priv, h.virt, h.tvec, h.mem, hpc']

theorem InLoop.next_at_trap {s : State} (h : InLoop s) (hp : s.pc = 4) :
    ∃ t, step s = .next t ∧ InLoop t ∧ t.pc = 0 := by
  have hf : fetch (Machine.esPhase s) = .next (bytesOfWord 0x01502073#32) := by
    simp only [fetch, esPhase_pc, esPhase_params, esPhase_mem, h.xlen, h.mem, hp]
    rfl
  have hl : trapLevel .illegalInstruction (Machine.esPhase s) = .m := by
    unfold trapLevel; exact if_pos (.inl h.priv)
  have hm : (Machine.esPhase s).params.trapMode = .privileged := h.mode
  have hb : tvecBase .rv32 0#64 = 0#64 := by decide
  have hn : step s = .next (Machine.esPhase
      (enterTrap .illegalInstruction (encode (.csrrs 0 0x015 0)) (Machine.esPhase s))) := by
    have hk : seedCheck (Machine.esPhase s) (isReadWrite (.csrrs 0 0x015 0)) = .illegal := by
      simp [seedCheck, seedAccess, isReadWrite, isWrite, opOf, srcOf, fieldNonzero]
    rw [step_of_fetch hf (i := .csrrs 0 0x015 0) (rest := []) rfl, exec_seed _ _ rfl, hk]
    simp only [takeException, hm, closingTurn]
  refine ⟨_, hn, ⟨?_, ?_, ?_, ?_, ?_, ?_, ?_, .inl ?_⟩, ?_⟩ <;>
    simp [enterTrap, hl, saveTrap, h.xlen, h.zkr, h.mode, h.tvec, h.mem, hb]

/-- The loop goes on and polls again and again, whatever the source does. -/
theorem InLoop.pollsForEver {s : State} (h : InLoop s) : PollsForEver s := by
  have hstep : ∀ s, InLoop s → ∃ t, step s = .next t ∧ InLoop t := by
    intro s h
    rcases h.pc with hp | hp
    · obtain ⟨t, ht, hi, -⟩ := h.next_at_poll hp; exact ⟨t, ht, hi⟩
    · obtain ⟨t, ht, hi, -⟩ := h.next_at_trap hp; exact ⟨t, ht, hi⟩
  have hall : ∀ n, InLoop (stateAt s n) := fun n => stateAt_induction hstep n s h
  refine ⟨fun n => ?_, fun n => ?_⟩
  · obtain ⟨t, ht, -⟩ := hstep _ (hall n); exact ⟨t, ht⟩
  · rcases (hall n).pc with hp | hp
    · exact ⟨n, le_rfl, (hall n).polls hp⟩
    · obtain ⟨t, ht, hi, hp'⟩ := (hall n).next_at_trap hp
      refine ⟨n + 1, Nat.le_succ n, ?_⟩
      rw [stateAt_add_one, stateAfter_of_next ht]
      exact hi.polls hp'

end Sys2Proof.Machine
end

