-- ==== Sys2Proof/Tests/Slice0.lean ====
section
/-! SUPPORT. Tests. Expected values are those of spec/95_test_vectors.md (the vector is named in each comment) or are
worked out by hand from the rule named. Then the witnesses: concrete states and operands that meet the hypotheses of
each statement of Certificates/Slice0/Obligations.lean. -/

namespace Sys2Proof.Tests

open Sys2Proof.Machine Sys2Proof.Safety

/-! Well-formedness: each check refuses an ill-formed term (30_encoding.md R71, R72). -/

theorem test_wf_csrrw_csr_too_big : ¬ WellFormed (.csrrw 10 4096 0) := by decide
theorem test_wf_csrrs_csr_too_big : ¬ WellFormed (.csrrs 10 4096 0) := by decide
theorem test_wf_csrrc_csr_too_big : ¬ WellFormed (.csrrc 10 4096 0) := by decide
theorem test_wf_csrrwi_csr_too_big : ¬ WellFormed (.csrrwi 10 4096 0) := by decide
theorem test_wf_csrrsi_csr_too_big : ¬ WellFormed (.csrrsi 10 4096 0) := by decide
theorem test_wf_csrrci_csr_too_big : ¬ WellFormed (.csrrci 10 4096 0) := by decide
theorem test_wf_csrrwi_uimm_too_big : ¬ WellFormed (.csrrwi 10 0x747 32) := by decide
theorem test_wf_csrrsi_uimm_too_big : ¬ WellFormed (.csrrsi 10 0x747 32) := by decide
theorem test_wf_csrrci_uimm_too_big : ¬ WellFormed (.csrrci 10 0x747 32) := by decide
theorem test_wf_largest_operands : WellFormed (.csrrw 31 4095 31) ∧ WellFormed (.csrrci 31 4095 31) := by decide

/-! Decoding, the words of 95_test_vectors.md part 2.1 (S3, E6, E8, E10, E11, E13, E14, E16, E20, E21, E31, E34). -/

theorem test_decode_csrrw : decodeTableWord 32 0x01501573 = some (.csrrw 10 0x015 0) := by decide
theorem test_decode_csrrw_fields : decodeTableWord 32 0x015F9FF3 = some (.csrrw 31 0x015 31) := by decide
theorem test_decode_csrrs : decodeTableWord 32 0x0152A573 = some (.csrrs 10 0x015 5) := by decide
theorem test_decode_csrrs_rd_x0 : decodeTableWord 32 0x0152A073 = some (.csrrs 0 0x015 5) := by decide
theorem test_decode_csrrc : decodeTableWord 32 0x0152B573 = some (.csrrc 10 0x015 5) := by decide
theorem test_decode_csrrc_zero_fields : decodeTableWord 32 0x01503073 = some (.csrrc 0 0x015 0) := by decide
theorem test_decode_csrrwi : decodeTableWord 32 0x015FD573 = some (.csrrwi 10 0x015 31) := by decide
theorem test_decode_csrrsi : decodeTableWord 32 0x0150E573 = some (.csrrsi 10 0x015 1) := by decide
theorem test_decode_csrrci : decodeTableWord 32 0x74707673 = some (.csrrci 12 0x747 0) := by decide
theorem test_decode_csrrci_uimm31 : decodeTableWord 32 0x747FF573 = some (.csrrci 10 0x747 31) := by decide

/-- E25 to E30: the encoder writes the spec's words. -/
theorem test_encode_words :
    encode (.csrrs 0 0x747 5) = 0x7472A073#32 ∧ encode (.csrrc 0 0x747 5) = 0x7472B073#32 ∧
    encode (.csrrw 10 0x747 10) = 0x74751573#32 ∧ encode (.csrrwi 10 0x747 31) = 0x747FD573#32 := by decide

/-- 20_memory.md R52: the word 0x01501573 stands in memory as 73 15 50 01. -/
theorem test_byte_order : bytesOfWord 0x01501573#32 = [0x73#8, 0x15#8, 0x50#8, 0x01#8] := by decide

/-- P4: `srli` is no instruction of this hardware; R76 (d): `ecall` is not a CSR instruction. -/
theorem test_decode_refuses :
    decodeTableWord 32 0x01E55593 = none ∧ decodeTableWord 32 0x00000073 = none ∧
    decodeTableWord 32 0x00004073 = none := by decide

/-! States for the tests: RV32, all modes, both bits writable; `t0` holds 0x300; one poll and the source's two turns of
a step are scripted, the poll choosing `WAIT`, the source doing nothing. -/

def quiet : Env := { polls := 0, pollScript := [⟨0, 0, true, 0⟩], ticks := 0, esScript := [[], []] }

def hartOf (p : Params) (priv : Priv) (virt sseed useed : Bool) (es : Es) : State :=
  { State.resetFor p with
    regs := (Vector.replicate 32 (0 : Word)).set 5 0x300
    priv := priv
    virt := virt
    sseed := sseed
    useed := useed
    es := es
    env := quiet }

def hart (priv : Priv) (virt sseed useed : Bool) (es : Es) : State := hartOf standardParams priv virt sseed useed es

def trapping : Params := { standardParams with trapMode := .privileged }

/-- The next state, or reset where there is none. -/
def after (o : Host.Outcome State Fault Refusal) : State :=
  match o with
  | .next t => t
  | .fault _ => State.reset
  | .refused _ => State.reset

/-- The fault, if the outcome is one. -/
def faultOf (o : Host.Outcome State Fault Refusal) : Option Fault :=
  match o with
  | .next _ => none
  | .fault r => some r
  | .refused _ => none

def es16 : Es := ⟨.es16, 0xABCD, false⟩
def waiting : Es := ⟨.wait, 0, false⟩
def resting : Es := ⟨.bist, 0, false⟩
def alarmed : Es := ⟨.bist, 0, true⟩
def broken : Es := ⟨.dead, 0, false⟩

/-! One step of each instruction. -/

/-- K5, W1: the word delivered once, the source wiped. -/
theorem test_csrrw_poll :
    readReg (after (exec (.csrrw 10 0x015 0) (hart .m false false false es16))) 10 = 0x8000ABCD#64 ∧
    (after (exec (.csrrw 10 0x015 0) (hart .m false false false es16))).es = waiting := by decide

/-- M12: the operand is read before `rd` is written; only bit 9 is set in it. -/
theorem test_csrrw_operand_read_first :
    let s := writeReg 10 0x200 (hart .m false false true waiting)
    readReg (after (exec (.csrrw 10 0x747 10) s)) 10 = 0x100#64 ∧
    (after (exec (.csrrw 10 0x747 10) s)).sseed = true ∧
    (after (exec (.csrrw 10 0x747 10) s)).useed = false := by decide

/-- M6: 0x200 OR 0x300, and the old value in `rd`. -/
theorem test_csrrs_mseccfg :
    readReg (after (exec (.csrrs 10 0x747 5) (hart .m false true false waiting))) 10 = 0x200#64 ∧
    mseccfgRead (after (exec (.csrrs 10 0x747 5) (hart .m false true false waiting))) = 0x300#64 := by decide

/-- X4: a read-only form raises illegal instruction in M mode. -/
theorem test_csrrs_read_only :
    faultOf (exec (.csrrs 10 0x015 0) (hart .m false false false es16)) =
      some (.trapped .illegalInstruction 0 0x01502573#32 .m false) := by decide

/-- M7, with both bits in the operand: everything cleared. -/
theorem test_csrrc_mseccfg :
    mseccfgRead (after (exec (.csrrc 10 0x747 5) (hart .m false true true waiting))) = 0 := by decide

/-- W11, K3: on `seed` CSRRC polls and clears nothing more. -/
theorem test_csrrc_poll :
    readReg (after (exec (.csrrc 10 0x015 5) (hart .m false false false waiting))) 10 = 0x40000000#64 ∧
    (after (exec (.csrrc 10 0x015 5) (hart .m false false false waiting))).es = waiting := by decide

/-- M8: the immediate replaces the whole register and has no bit 8 or 9. -/
theorem test_csrrwi_mseccfg :
    readReg (after (exec (.csrrwi 10 0x747 31) (hart .m false true true waiting))) 10 = 0x300#64 ∧
    mseccfgRead (after (exec (.csrrwi 10 0x747 31) (hart .m false true true waiting))) = 0 := by decide

/-- W3: `uimm` = 0 is a read-write form of CSRRWI. -/
theorem test_csrrwi_zero_polls :
    (after (exec (.csrrwi 10 0x015 0) (hart .m false false false waiting))).pc = 4#64 := by decide

/-- K2: the alarm polled once, by U mode with `useed` (A10). -/
theorem test_csrrsi_alarm :
    (after (exec (.csrrsi 10 0x015 1) (hart .u false false true alarmed))).es = resting := by decide

/-- M9: nothing changes. -/
theorem test_csrrsi_mseccfg :
    mseccfgRead (after (exec (.csrrsi 10 0x747 31) (hart .m false true true waiting))) = 0x300#64 := by decide

/-- A15: a read-write form in VS mode. -/
theorem test_csrrci_guest :
    faultOf (exec (.csrrci 10 0x015 1) (hart .s true true false es16)) =
      some (.trapped .virtualInstruction 0 0x0150F573#32 .s true) := by decide

/-- M10: nothing changes. -/
theorem test_csrrci_mseccfg :
    mseccfgRead (after (exec (.csrrci 10 0x747 31) (hart .m false true true waiting))) = 0x300#64 := by decide

/-! The machine. -/

/-- K14, on RV64, all draws ones: bits 63:32 are zero. -/
theorem test_poll_rv64_zero_extended :
    let s := { hartOf { standardParams with xlen := .rv64 } .m false false false broken with
               env := { quiet with pollScript := [⟨0x3F, 0xFF, true, 0⟩] } }
    readReg (after (exec (.csrrw 10 0x015 0) s)) 10 = 0x00000000FFFF0000#64 := by decide

/-- M3: only `sseed` is writable. -/
theorem test_hardwired_bit :
    let s := hartOf { standardParams with useedImplemented := false } .m false false false waiting
    mseccfgRead (after (exec (.csrrw 10 0x747 5) s)) = 0x200#64 := by decide

/-- T4, T5, T6, T12, T13, T14. -/
theorem test_es_step_not_admitted :
    esStep .toWait alarmed = none ∧ esStep (.toEs16 1) alarmed = none ∧ esStep .toDead alarmed = some ⟨.dead, 0, true⟩ ∧
    esStep .toWait es16 = none ∧ esStep (.toEs16 1) es16 = none ∧ esStep .toBist broken = none := by decide

/-- A placed word is fetched, decoded and executed (K5 through `step`). -/
theorem test_step_runs_placed_word :
    readReg (after (step ((hart .m false false false es16).withFetchWord 32 0x01501573))) 10 = 0x8000ABCD#64 := by
  decide

/-- 41_seed_polling.md R118: the source moves after the last instruction, here from `WAIT` to `ES16` (T7). -/
theorem test_source_moves_after_last_instruction :
    let s := { hart .m false false false es16 with env := { quiet with esScript := [[], [.es (.toEs16 0xBEEF)]] } }
    readReg (after (step (s.withFetchWord 32 0x01501573))) 10 = 0x8000ABCD#64 ∧
    (after (step (s.withFetchWord 32 0x01501573))).es = ⟨.es16, 0xBEEF, false⟩ := by decide

/-- X1, then T11: the refused poll leaves the word, and the source may then fail. -/
theorem test_source_moves_after_trap :
    let s := { hart .u false false false es16 with env := { quiet with esScript := [[], [.es .toDead]] } }
    (stateAfter (s.withFetchWord 32 0x01501573)).es = broken ∧
    readReg (stateAfter (s.withFetchWord 32 0x01501573)) 10 = 0 := by decide

/-- 70_reset_and_hazards.md R215: just past the program text the run is completed. -/
theorem test_completed :
    faultOf (step { (hart .m false false false es16).withFetchWord 32 0x01501573 with pc := 4 }) =
      some (.completed 4) := by decide

/-- 60_exceptions.md R185 outline: trap entry into M mode from U mode. -/
theorem test_trap_entry :
    let t := after (exec (.csrrw 10 0x015 0) { hartOf trapping .u false false false es16 with pc := 8 })
    t.priv = .m ∧ t.trap.m.epc = 8#64 ∧ t.trap.m.cause = 2#64 ∧ t.trap.m.tval = 0x01501573#64 ∧ t.trap.m.pp = .u ∧
      t.es = es16 := by decide

/-! Witnesses: the hypotheses of each statement are met together. -/

/-- M, S with `sseed` and U with `useed` may poll. -/
theorem witness_may_poll :
    MayPoll (hart .m false false false es16) ∧ MayPoll (hart .s false true false es16) ∧
    MayPoll (hart .u false false true es16) :=
  ⟨⟨rfl, rfl, .inl rfl⟩, ⟨rfl, rfl, .inr (.inl ⟨rfl, rfl⟩)⟩, ⟨rfl, rfl, .inr (.inr ⟨rfl, rfl⟩)⟩⟩

theorem witness_DecodeInvertsEncode :
    WellFormed (.csrrw 0 0 0) ∧ WellFormed (.csrrs 31 4095 31) ∧ WellFormed (.csrrc 1 0x747 5) ∧
    WellFormed (.csrrwi 0 0 0) ∧ WellFormed (.csrrsi 31 4095 31) ∧ WellFormed (.csrrci 1 0x015 1) := by decide

theorem witness_DecodedBytesAreTheEncoding :
    decode [0x73, 0x15, 0x50, 0x01, 0xFF] = .ok (.csrrw 10 0x015 0, [0xFF]) := by rfl

/-- Both sides of each of the six rows (S3, E10, E13, E16, E20, E31). -/
theorem witness_DecodeFollowsTheOpcodeMap :
    0x01501573#32 &&& 0x0000707F#32 = 0x00001073#32 ∧ 0x0152A573#32 &&& 0x0000707F#32 = 0x00002073#32 ∧
    0x0152B573#32 &&& 0x0000707F#32 = 0x00003073#32 ∧ 0x015FD573#32 &&& 0x0000707F#32 = 0x00005073#32 ∧
    0x0150E573#32 &&& 0x0000707F#32 = 0x00006073#32 ∧ 0x74707673#32 &&& 0x0000707F#32 = 0x00007073#32 := by decide

theorem witness_WordsOutsideTheTableAreRefused :
    (0x00000073#32 &&& 0x7F#32 = 0x73#32 ∧ (0x00000073#32).extractLsb' 12 3 = 0b000#3) ∧
    (0x00004073#32 &&& 0x7F#32 = 0x73#32 ∧ (0x00004073#32).extractLsb' 12 3 = 0b100#3) ∧
    0x01E55593#32 &&& 0x7F#32 ≠ 0x73#32 := by decide

/-- The step clause, for a SYSTEM word and for a word of another opcode. -/
theorem witness_WordsOutsideTheTableAreRefused_step :
    (fetch (esPhase ((hart .m false false false es16).withFetchWord 32 0x00000073)) = .next [0x73, 0, 0, 0] ∧
      decode [0x73, 0, 0, 0] = .error (.systemNotCsr 0x00000073#32)) ∧
    (fetch (esPhase ((hart .m false false false es16).withFetchWord 32 0x01E55593)) =
        .next [0x93, 0x55, 0xE5, 0x01] ∧
      decode [0x93, 0x55, 0xE5, 0x01] = .error (.notSystemOpcode 0x01E55593#32)) :=
  ⟨⟨rfl, rfl⟩, rfl, rfl⟩

theorem witness_WriteFormIsDecidedByTheEncoding :
    WellFormed (.csrrw 10 0x015 0) ∧ WellFormed (.csrrs 10 0x015 0) ∧ WellFormed (.csrrsi 10 0x015 31) ∧
    isReadWrite (.csrrw 10 0x015 0) = true ∧ isReadWrite (.csrrs 10 0x015 0) = false ∧
    isReadWrite (.csrrsi 10 0x015 31) = true := by decide

/-- The rows A15, A13, A1, A7, A5, A10, A9 and a read-only form. -/
theorem witness_SeedAccessDecidesEverySeedInstruction :
    csrOf (.csrrw 10 0x015 0) = 0x015 ∧ isReadWrite (.csrrw 10 0x015 0) = true ∧
    csrOf (.csrrs 10 0x015 0) = 0x015 ∧ isReadWrite (.csrrs 10 0x015 0) = false ∧
    (let s := hart .s true true false es16; s.params.zkr = true ∧ s.virt = true ∧ s.sseed = true) ∧
    (let s := hart .s true false false es16; s.params.zkr = true ∧ s.virt = true ∧ s.sseed = false) ∧
    (let s := hart .m false false false es16; s.params.zkr = true ∧ s.virt = false ∧ s.priv = .m) ∧
    (let s := hart .s false true false es16; s.params.zkr = true ∧ s.virt = false ∧ s.priv = .s ∧ s.sseed = true) ∧
    (let s := hart .s false false true es16; s.params.zkr = true ∧ s.virt = false ∧ s.priv = .s ∧ s.sseed = false) ∧
    (let s := hart .u false false true es16; s.params.zkr = true ∧ s.virt = false ∧ s.priv = .u ∧ s.useed = true) ∧
    (let s := hart .u false true false es16; s.params.zkr = true ∧ s.virt = false ∧ s.priv = .u ∧ s.useed = false) := by
  decide

theorem witness_ReadOnlySeedFormsAreIllegal :
    let s := hart .u true true false es16
    s.params.zkr = true ∧ s.virt = true ∧ s.sseed = true ∧ csrOf (.csrrwi 10 0x015 0) = 0x015 ∧
      isReadWrite (.csrrwi 10 0x015 0) = true := by decide

/-- With `witness_may_poll`: a source register and an immediate that are not zero. -/
theorem witness_PermittedPollsComplete :
    MayPoll (hart .m false false false es16) ∧ (1 : Reg) ≠ 0 ∧ (31 : Reg) ≠ 0 ∧ (1 : Nat) ≠ 0 ∧ (31 : Nat) ≠ 0 :=
  ⟨witness_may_poll.1, by decide⟩

theorem witness_SeedWithoutZkrIsIllegal :
    csrOf (.csrrw 10 0x015 0) = 0x015 ∧
    (hartOf { standardParams with zkr := false } .m false false false es16).params.zkr = false := by decide

theorem witness_OtherCsrNumbersAreRefused :
    csrOf (.csrrw 10 0x300 0) ≠ 0x015 ∧ csrOf (.csrrw 10 0x300 0) ≠ (hart .m false false false es16).params.mseccfgAddr := by
  decide

/-- A state of each status and both wipes. -/
theorem witness_SeedPollByStatus :
    (hart .m false false false alarmed).es.opst = .bist ∧ (hart .m false false false waiting).es.opst = .wait ∧
    (hart .m false false false es16).es.opst = .es16 ∧ (hart .m false false false broken).es.opst = .dead ∧
    (pollDraw (hart .m false false false es16)).toWait = true ∧
    (pollDraw { hart .m false false false es16 with env := { quiet with pollScript := [⟨1, 2, false, 3⟩] } }).toWait =
      false := by decide

/-- The access clause of `SeedPollByStatus`, and the first two clauses of `SeedIgnoresTheWriteValue`. -/
theorem witness_permitted_access :
    csrOf (.csrrw 10 0x015 5) = 0x015 ∧ csrOf (.csrrci 10 0x015 31) = 0x015 ∧
    rdOf (.csrrw 10 0x015 5) = rdOf (.csrrci 10 0x015 31) ∧ isReadWrite (.csrrw 10 0x015 5) = true ∧
    isReadWrite (.csrrci 10 0x015 31) = true ∧ MayPoll (hart .m false false false es16) :=
  ⟨by decide, by decide, by decide, by decide, by decide, witness_may_poll.1⟩

/-- The third clause: a next state from `BIST`, from `WAIT` and from `DEAD`. -/
theorem witness_SeedIgnoresTheWriteValue_status :
    (exec (.csrrw 10 0x015 5) (hart .m false false false alarmed) =
      .next (after (exec (.csrrw 10 0x015 5) (hart .m false false false alarmed))) ∧ alarmed.opst ≠ .es16) ∧
    (exec (.csrrw 10 0x015 5) (hart .m false false false waiting) =
      .next (after (exec (.csrrw 10 0x015 5) (hart .m false false false waiting))) ∧ waiting.opst ≠ .es16) ∧
    (exec (.csrrw 10 0x015 5) (hart .m false false false broken) =
      .next (after (exec (.csrrw 10 0x015 5) (hart .m false false false broken))) ∧ broken.opst ≠ .es16) :=
  ⟨⟨rfl, by decide⟩, ⟨rfl, by decide⟩, rfl, by decide⟩

/-- `rd` at both ends of its range. -/
theorem witness_PolledWordIsZeroExtended :
    csrOf (.csrrw 31 0x015 0) = 0x015 ∧ isReadWrite (.csrrw 31 0x015 0) = true ∧ rdOf (.csrrw 31 0x015 0) ≠ 0 ∧
    rdOf (.csrrw 1 0x015 0) ≠ 0 ∧ MayPoll (hart .m false false false broken) :=
  ⟨by decide, by decide, by decide, by decide, rfl, rfl, .inl rfl⟩

theorem witness_DeliveredWordIsNotKept :
    csrOf (.csrrw 10 0x015 0) = 0x015 ∧ isReadWrite (.csrrw 10 0x015 0) = true ∧
    MayPoll (hart .m false false false es16) ∧ (hart .m false false false es16).es.opst = .es16 :=
  ⟨by decide, by decide, witness_may_poll.1, by decide⟩

/-- A guest, and a guest's next state (in a composed model its access traps). -/
theorem witness_GuestNeverReachesTheSource :
    (hartOf trapping .s true true false es16).virt = true ∧
    exec (.csrrw 10 0x015 0) (hartOf trapping .s true true false es16) =
      .next (after (exec (.csrrw 10 0x015 0) (hartOf trapping .s true true false es16))) := ⟨rfl, rfl⟩

theorem witness_OnlyPermittedPollsTouchTheSource :
    exec (.csrrw 10 0x015 0) (hart .u false false true es16) =
      .next (after (exec (.csrrw 10 0x015 0) (hart .u false false true es16))) ∧
    (after (exec (.csrrw 10 0x015 0) (hart .u false false true es16))).es ≠ (hart .u false false true es16).es :=
  ⟨rfl, by decide⟩

theorem witness_MseccfgReadsItsTwoBits :
    (hart .m false true false es16).sseed = true ∧ (hart .m false true false es16).useed = false ∧
    (hart .m false true false es16).priv = .m ∧ (hart .m false true false es16).params.mseccfgAddr ≠ 0x015 ∧
    (7 : Nat) ≠ 9 ∧ (7 : Nat) ≠ 8 ∧ (10 : Nat) ≠ 9 ∧ (10 : Nat) ≠ 8 := by decide

theorem witness_MseccfgWriteSetsItsTwoBits :
    (hart .m false false false es16).params.sseedWritable = true ∧
    (hart .m false false false es16).params.useedWritable = true ∧
    (hartOf { standardParams with hasS := false, hasU := false, hasH := false } .m false false false
      es16).params.sseedWritable = false ∧
    (hartOf { standardParams with hasS := false, hasU := false, hasH := false } .m false false false
      es16).params.useedWritable = false ∧
    (0x300#64).getLsbD 9 = (0xFFFFFFFF#64).getLsbD 9 ∧ (0x300#64).getLsbD 8 = (0xFFFFFFFF#64).getLsbD 8 ∧
    (hart .m false false false es16).priv = .m ∧ (hart .m false false false es16).params.mseccfgAddr ≠ 0x015 ∧
    csrOf (.csrrw 10 0x747 5) = (hart .m false false false es16).params.mseccfgAddr ∧
    isReadWrite (.csrrw 10 0x747 5) = true := by decide

/-- For CsrReplaceOnMseccfg, CsrSetBitsOnMseccfg and CsrClearBitsOnMseccfg: the immediate at both ends. -/
theorem witness_CsrOnMseccfg :
    (hart .m false true true es16).priv = .m ∧ (hart .m false true true es16).params.mseccfgAddr ≠ 0x015 ∧
    0 < 32 ∧ 31 < 32 := by decide

theorem witness_DiscoveryOfWritableBits :
    let s := hart .m false false false es16
    s.priv = .m ∧ s.params.mseccfgAddr ≠ 0x015 ∧ (11 : Reg) ≠ 0 ∧ (5 : Reg) ≠ 0 ∧
      (readReg s 5).getLsbD 9 = true ∧ (readReg s 5).getLsbD 8 = true := by decide

theorem witness_MseccfgOutsideMachineModeIsIllegal :
    csrOf (.csrrs 11 0x747 0) = (hart .s false true true es16).params.mseccfgAddr ∧
    (hart .s false true true es16).params.mseccfgAddr ≠ 0x015 ∧ (hart .s false true true es16).priv ≠ .m ∧
    (hart .u false true true es16).priv ≠ .m := by decide

theorem witness_OnlyMachineModeChangesTheAccessBits :
    exec (.csrrw 10 0x015 0) (hart .s false true false es16) =
      .next (after (exec (.csrrw 10 0x015 0) (hart .s false true false es16))) ∧
    (hart .s false true false es16).priv ≠ .m := ⟨rfl, by decide⟩

/-- `csrrw a0, mseccfg, t0` run on a hart with neither bit writable. -/
def hardwiredHart : State :=
  (hartOf { standardParams with sseedImplemented := false, useedImplemented := false } .m false false false
    es16).withFetchWord 32 0x74729573

/-- The same instruction on a hart that lacks S mode (and so H), U mode, or `Zkr`. -/
def hartWithout (p : Params) : State := (hartOf p .m false false false es16).withFetchWord 32 0x74729573
def noSupervisor : State := hartWithout { standardParams with hasS := false, hasH := false }
def noUser : State := hartWithout { standardParams with hasU := false, hasH := false }
def noZkr : State := hartWithout { standardParams with zkr := false }

theorem witness_HardwiredBitsStayZero_absent :
    (Host.Core.run Sys2Proof.core 1 noSupervisor = .next (after (step noSupervisor)) ∧
      noSupervisor.params.hasS = false ∧ noSupervisor.sseed = false) ∧
    (Host.Core.run Sys2Proof.core 1 noUser = .next (after (step noUser)) ∧
      noUser.params.hasU = false ∧ noUser.useed = false) ∧
    (Host.Core.run Sys2Proof.core 1 noZkr = .next (after (step noZkr)) ∧
      noZkr.params.zkr = false ∧ noZkr.sseed = false ∧ noZkr.useed = false) :=
  ⟨⟨rfl, rfl, rfl⟩, ⟨rfl, rfl, rfl⟩, rfl, rfl, rfl, rfl⟩

theorem witness_HardwiredBitsStayZero :
    Host.Core.run Sys2Proof.core 1 hardwiredHart = .next (after (step hardwiredHart)) ∧
    hardwiredHart.params.sseedWritable = false ∧ hardwiredHart.sseed = false ∧
    hardwiredHart.params.useedWritable = false ∧ hardwiredHart.useed = false ∧
    hardwiredHart.params.sseedImplemented = false ∧ hardwiredHart.params.useedImplemented = false :=
  ⟨rfl, by decide, by decide, by decide, by decide, by decide, by decide⟩

/-- Every mode of a hart with all modes is well formed, but V = 1 in M mode. -/
theorem wellFormedMode_hart (priv : Priv) (virt sseed useed : Bool) (es : Es) (h : virt = true → priv ≠ .m) :
    WellFormedMode (hart priv virt sseed useed es) :=
  ⟨fun _ => rfl, fun _ => rfl, fun hv => ⟨rfl, h hv⟩⟩

/-- The cases (a) to (e) of 60_exceptions.md R180, in order. -/
theorem witness_IllegalInstructionExactlyWhen :
    (WellFormedMode (hart .m false false false es16) ∧ isReadWrite (.csrrs 10 0x015 0) = false) ∧
    (WellFormedMode (hart .s false false true es16) ∧ (hart .s false false true es16).sseed = false) ∧
    (WellFormedMode (hart .u false true false es16) ∧ (hart .u false true false es16).useed = false) ∧
    (WellFormedMode (hart .u true false true es16) ∧ (hart .u true false true es16).sseed = false) ∧
    (WellFormedMode (hart .s false true true es16) ∧ (hart .s false true true es16).priv ≠ .m) ∧
    standardParams.trapMode = .terminal ∧ standardParams.mseccfgAddr ≠ 0x015 :=
  ⟨⟨wellFormedMode_hart _ _ _ _ _ (by decide), by decide⟩, ⟨wellFormedMode_hart _ _ _ _ _ (by decide), by decide⟩,
    ⟨wellFormedMode_hart _ _ _ _ _ (by decide), by decide⟩, ⟨wellFormedMode_hart _ _ _ _ _ (by decide), by decide⟩,
    ⟨wellFormedMode_hart _ _ _ _ _ (by decide), by decide⟩, by decide, by decide⟩

/-- The case (f): no `Zkr`. -/
theorem witness_IllegalInstructionExactlyWhen_zkr :
    let s := hartOf { standardParams with zkr := false } .m false false false es16
    WellFormedMode s ∧ s.params.trapMode = .terminal ∧ s.params.mseccfgAddr ≠ 0x015 ∧ s.params.zkr = false :=
  ⟨⟨fun _ => rfl, fun _ => rfl, fun h => absurd h (by decide)⟩, by decide, by decide, by decide⟩

theorem witness_VirtualInstructionExactlyWhen :
    WellFormedMode (hart .u true true false es16) ∧ (hart .u true true false es16).params.trapMode = .terminal ∧
    exec (.csrrw 10 0x015 0) (hart .u true true false es16) = .fault (.trapped .virtualInstruction
      (hart .u true true false es16).pc (encode (.csrrw 10 0x015 0)) (hart .u true true false es16).priv
      (hart .u true true false es16).virt) :=
  ⟨wellFormedMode_hart _ _ _ _ _ (by decide), by decide, rfl⟩

theorem witness_RaisedExceptionOutcome :
    (hart .m false false false es16).params.trapMode = .terminal ∧
    (hartOf trapping .m false false false es16).params.trapMode = .privileged := by decide

/-- Undelegated: from M mode with everything delegated, without S mode, and from U mode with nothing delegated. -/
def fromMachine : State := { hartOf trapping .m false false false es16 with
  trap := { TrapRegs.reset with medeleg := ~~~0#64 } }
def withoutSupervisor : State :=
  hartOf { trapping with hasS := false, hasH := false } .u false false false es16
def undelegated : State := hartOf trapping .u false false false es16

theorem witness_TrapEntryIntoMachineMode :
    (fromMachine.params.trapMode = .privileged ∧ fromMachine.priv = .m ∧
      takeException .illegalInstruction 0 fromMachine = .next (enterTrap .illegalInstruction 0 fromMachine)) ∧
    (withoutSupervisor.params.trapMode = .privileged ∧ withoutSupervisor.params.hasS = false ∧
      takeException .illegalInstruction 0 withoutSupervisor =
        .next (enterTrap .illegalInstruction 0 withoutSupervisor)) ∧
    (undelegated.params.trapMode = .privileged ∧
      undelegated.trap.medeleg.getLsbD (causeCode undelegated.params .illegalInstruction) = false ∧
      takeException .illegalInstruction 0 undelegated = .next (enterTrap .illegalInstruction 0 undelegated)) :=
  ⟨⟨rfl, rfl, rfl⟩, ⟨rfl, rfl, rfl⟩, rfl, by decide, rfl⟩

/-- A guest with everything delegated. -/
def delegatedGuest : State := { hartOf trapping .u true true false es16 with
  trap := { TrapRegs.reset with medeleg := ~~~0#64, hedeleg := ~~~0#64 } }

/-- Into VS for the illegal instruction exception, into HS for the virtual instruction exception. -/
theorem witness_DelegatedTrapEntry :
    delegatedGuest.params.trapMode = .privileged ∧ delegatedGuest.priv ≠ .m ∧ delegatedGuest.params.hasS = true ∧
    delegatedGuest.trap.medeleg.getLsbD (causeCode delegatedGuest.params .illegalInstruction) = true ∧
    delegatedGuest.trap.medeleg.getLsbD (causeCode delegatedGuest.params .virtualInstruction) = true ∧
    delegatedGuest.virt = true ∧
    delegatedGuest.trap.hedeleg.getLsbD (causeCode delegatedGuest.params .illegalInstruction) = true ∧
    takeException .illegalInstruction 0 delegatedGuest = .next (enterTrap .illegalInstruction 0 delegatedGuest) ∧
    takeException .virtualInstruction 0 delegatedGuest = .next (enterTrap .virtualInstruction 0 delegatedGuest) :=
  ⟨by decide, by decide, by decide, by decide, by decide, by decide, by decide, rfl, rfl⟩

/-- A guest with everything delegated and `sseed` clear. -/
def deniedGuest : State := { delegatedGuest with sseed := false }

/-- Taken by M mode, by HS mode and by VS mode. -/
theorem witness_ExceptionLeavesTheHardwareAsItWas :
    (undelegated.params.trapMode = .privileged ∧ trapLevel .illegalInstruction undelegated = .m ∧
      exec (.csrrw 10 0x015 0) undelegated =
        takeException .illegalInstruction (encode (.csrrw 10 0x015 0)) undelegated) ∧
    (delegatedGuest.params.trapMode = .privileged ∧ trapLevel .virtualInstruction delegatedGuest = .s ∧
      exec (.csrrw 10 0x015 0) delegatedGuest =
        takeException .virtualInstruction (encode (.csrrw 10 0x015 0)) delegatedGuest) ∧
    (deniedGuest.params.trapMode = .privileged ∧ trapLevel .illegalInstruction deniedGuest = .vs ∧
      exec (.csrrw 10 0x015 0) deniedGuest =
        takeException .illegalInstruction (encode (.csrrw 10 0x015 0)) deniedGuest) :=
  ⟨⟨rfl, by decide, rfl⟩, ⟨rfl, by decide, rfl⟩, rfl, by decide, rfl⟩

/-- A poll, a write of `mseccfg`, and a poll into `x0`. -/
theorem witness_CompletedInstructionFrame :
    (hart .m false false false es16).params.trapMode = .terminal ∧
    exec (.csrrw 10 0x015 0) (hart .m false false false es16) =
      .next (after (exec (.csrrw 10 0x015 0) (hart .m false false false es16))) ∧
    exec (.csrrs 10 0x747 5) (hart .m false false false es16) =
      .next (after (exec (.csrrs 10 0x747 5) (hart .m false false false es16))) := ⟨rfl, rfl, rfl⟩

theorem witness_DestinationX0WritesNoRegister :
    rdOf (.csrrw 0 0x015 5) = 0 ∧
    exec (.csrrw 0 0x015 5) (hart .m false false false es16) =
      .next (after (exec (.csrrw 0 0x015 5) (hart .m false false false es16))) := ⟨rfl, rfl⟩

theorem witness_ImmediatesCannotSetTheAccessBits :
    BitsRespectHardwiring (hart .m false true true es16) ∧ 31 < 32 ∧
    exec (.csrrsi 10 0x747 31) (hart .m false true true es16) =
      .next (after (exec (.csrrsi 10 0x747 31) (hart .m false true true es16))) ∧
    exec (.csrrci 10 0x747 31) (hart .m false true true es16) =
      .next (after (exec (.csrrci 10 0x747 31) (hart .m false true true es16))) ∧
    exec (.csrrwi 10 0x747 31) (hart .m false true true es16) =
      .next (after (exec (.csrrwi 10 0x747 31) (hart .m false true true es16))) ∧
    (after (exec (.csrrsi 10 0x747 31) (hart .m false true true es16))).sseed = true :=
  ⟨⟨fun _ => rfl, fun _ => rfl⟩, by decide, rfl, rfl, rfl, by decide⟩

/-- The admitted transitions of the table, one for each disjunct (T1, T2, T3, T7 to T11). -/
theorem witness_EsStepAdmitsExactlyTheTable :
    esStep .toWait resting = some waiting ∧ esStep (.toEs16 0xABCD) resting = some es16 ∧
    esStep .toDead resting = some broken ∧ esStep (.toEs16 0xABCD) waiting = some es16 ∧
    esStep .toBist waiting = some alarmed ∧ esStep .toDead waiting = some broken ∧
    esStep .toBist es16 = some alarmed ∧ esStep .toDead es16 = some broken := by decide

/-- A scripted turn and an unscripted one; transitions admitted and not; a step that stops. -/
theorem witness_SourceTurnTouchesOnlyTheSource_turn :
    (hart .m false false false es16).env.esScript = [] :: [[]] ∧ State.reset.env.esScript = [] ∧
    esStep .toDead es16 = some broken ∧ esStep .toWait es16 = none ∧
    step State.reset = .fault (.fetchUnwritten 0) :=
  ⟨by decide, by decide, by decide, by decide, rfl⟩

theorem witness_SourceTurnTouchesOnlyTheSource :
    standardParams.esShared = false ∧ (Params.esShared { standardParams with esShared := true }) = true := by decide

/-- The hypotheses of the five clauses. -/
theorem witness_AlarmIsHeldUntilPolled :
    esStep .toBist waiting = some alarmed ∧ standardParams.esShared = false ∧ alarmed.opst = .bist ∧
    alarmed.bistLatched = true ∧
    (exec (.csrrw 10 0x015 0) (hart .m false false false alarmed) =
      .next (after (exec (.csrrw 10 0x015 0) (hart .m false false false alarmed))) ∧
      (after (exec (.csrrw 10 0x015 0) (hart .m false false false alarmed))).es.bistLatched = false) ∧
    csrOf (.csrrw 10 0x015 0) = 0x015 ∧ isReadWrite (.csrrw 10 0x015 0) = true ∧
    MayPoll (hart .m false false false alarmed) :=
  ⟨by decide, by decide, by decide, by decide, ⟨rfl, by decide⟩, by decide, by decide, rfl, rfl, .inl rfl⟩

def deadHart : State := (hart .m false false false broken).withFetchWord 32 0x01501573

theorem witness_DeadIsAbsorbing :
    deadHart.es.opst = .dead ∧ Host.Core.run Sys2Proof.core 1 deadHart = .next (after (step deadHart)) := ⟨rfl, rfl⟩

/-- A legal trace whose last word is `DEAD` and one that no run gives (`DEAD`, then `WAIT`). -/
theorem witness_PollTracesAreExactlyTheLegalOnes :
    LegalTrace [0x00000000#32, 0xC0000000#32] ∧ ¬ LegalTrace [0xC0000000#32, 0x40000000#32] := by
  constructor
  · refine ⟨?_, by decide⟩
    intro w hw
    simp only [List.mem_cons, List.not_mem_nil, or_false] at hw
    rcases hw with rfl | rfl
    · exact ⟨.bist, 0, 0, 0, by decide, fun _ => rfl⟩
    · exact ⟨.dead, 0, 0, 0, by decide, fun _ => rfl⟩
  · rintro ⟨-, h⟩
    revert h
    decide

/-- A state with the premises from which a step goes on. -/
theorem witness_EveryStepKeepsThePremises :
    Premises deadHart ∧ step deadHart = .next (after (step deadHart)) :=
  ⟨⟨⟨fun _ => rfl, fun _ => rfl, fun h => absurd h (by decide)⟩,
    ⟨fun h => absurd h (by decide), fun h => absurd h (by decide)⟩,
    ⟨fun _ => rfl, fun h => absurd h (by decide)⟩,
    by unfold PcAligned; decide,
    ⟨by decide, by decide⟩,
    ⟨by decide, by decide⟩⟩, rfl⟩

theorem witness_ResetHasThePremises : standardParams.wf = true := by decide

theorem witness_ResetState :
    standardParams.sseedWritable = true ∧ standardParams.useedWritable = true ∧
    Params.sseedWritable { standardParams with hasS := false } = false ∧
    Params.useedWritable { standardParams with zkr := false } = false := by decide

theorem witness_StepRunsTheDecodedInstruction :
    deadHart.pc.toNat % 4 = 0 ∧ deadHart.pc.toNat < 2 ^ deadHart.params.xlen.bits ∧
    readByte deadHart.mem deadHart.pc.toNat = some 0x73 ∧ readByte deadHart.mem (deadHart.pc.toNat + 1) = some 0x15 ∧
    readByte deadHart.mem (deadHart.pc.toNat + 2) = some 0x50 ∧
    readByte deadHart.mem (deadHart.pc.toNat + 3) = some 0x01 ∧
    decode [0x73, 0x15, 0x50, 0x01] = .ok (.csrrw 10 0x015 0, []) :=
  ⟨by decide, by decide, by decide, by decide, by decide, by decide, rfl⟩

/-- The three outcomes of the instruction: a poll, an exception in the hardware alone, an unlisted CSR. -/
theorem witness_StepRunsTheDecodedInstruction_outcomes :
    exec (.csrrw 10 0x015 0) (esPhase deadHart) = .next (after (exec (.csrrw 10 0x015 0) (esPhase deadHart))) ∧
    exec (.csrrs 10 0x015 0) (esPhase deadHart) =
      .fault (.trapped .illegalInstruction 0 (encode (.csrrs 10 0x015 0)) .m false) ∧
    exec (.csrrw 10 0x300 0) (esPhase deadHart) = .refused (.csrOutsideSpec 0x300) := ⟨rfl, rfl, rfl⟩

/-- The `pc` at both ends of the address space. -/
theorem witness_PlacedInstructionRunsNext :
    WellFormed (.csrrw 10 0x015 0) ∧
    (deadHart.pc.toNat % 4 = 0 ∧ deadHart.pc.toNat < 2 ^ deadHart.params.xlen.bits) ∧
    (let s := { deadHart with pc := 0xFFFFFFFC#64 }
     s.pc.toNat % 4 = 0 ∧ s.pc.toNat < 2 ^ s.params.xlen.bits) := by decide

/-- A misaligned `pc`; the end of a text; an address with no text near it; an empty memory; and the wrap of the end. -/
theorem witness_StepStopsWithoutAnInstruction :
    (2#64).toNat % 4 ≠ 0 ∧
    (textEnd deadHart.mem = some 4 ∧ 4 % 2 ^ deadHart.params.xlen.bits = (4#64).toNat ∧
      readByte deadHart.mem 4 = none) ∧
    ((4 : Nat) % 2 ^ deadHart.params.xlen.bits ≠ (8#64).toNat ∧ readByte deadHart.mem 8 = none) ∧
    (textEnd State.reset.mem = none ∧ readByte State.reset.mem State.reset.pc.toNat = none) ∧
    (textEnd [(0xFFFFFFFF, 0x01#8)] = some (2 ^ 32) ∧ 2 ^ 32 % 2 ^ standardParams.xlen.bits = (0#64).toNat ∧
      readByte [(0xFFFFFFFF, 0x01#8)] 0 = none) := by decide

/-- The first `pc` outside the address space of RV32; words of which one, two and three bytes are listed. -/
theorem witness_StepStopsWithoutAnInstruction_edges :
    ((2 ^ 32 : Nat) % 4 = 0 ∧ 2 ^ standardParams.xlen.bits ≤ (0x100000000#64).toNat) ∧
    (readByte [(0, 0x73#8)] 0 = some 0x73 ∧ readByte [(0, 0x73#8)] 1 = none) ∧
    (readByte [(0, 0x73#8), (1, 0x15#8)] 0 = some 0x73 ∧ readByte [(0, 0x73#8), (1, 0x15#8)] 2 = none) ∧
    (readByte [(0, 0x73#8), (1, 0x15#8), (2, 0x50#8)] 0 = some 0x73 ∧
      readByte [(0, 0x73#8), (1, 0x15#8), (2, 0x50#8)] 3 = none) := by decide

theorem witness_MemoryReadAfterWrite : Memory.wf deadHart.mem ∧ Memory.wf [] := by decide

/-- Two polls in a row, in a program of two words. -/
def twoPolls (es : Es) (turns : List (List EnvEvent)) : State :=
  { hart .m false false false es with
    mem := writeBytes 0 (bytesOfWord 0x01501573#32 ++ bytesOfWord 0x01501573#32) []
    env := { polls := 0, pollScript := [⟨0, 0, true, 0⟩, ⟨0, 0, true, 0⟩], ticks := 0, esScript := turns } }

/-- 41_seed_polling.md R121: a schedule on which every turn before a poll alarms and every turn after one has a word;
the source is often ready and no poll returns `ES16`. -/
theorem test_ready_source_is_no_ready_poll :
    let s := twoPolls waiting [[.es .toBist], [.es (.toEs16 1)], [.es .toBist], [.es (.toEs16 1)]]
    statusOfWord (polledWord (stateAt s 0)) = .bist ∧ (stateAt s 1).es.opst = .es16 ∧
    statusOfWord (polledWord (stateAt s 1)) = .bist ∧ (stateAt s 2).es.opst = .es16 := by decide

/-- Both steps poll, and where the source is `DEAD` both words say so. -/
theorem witness_PollingStepsReturnThePollTrace :
    (∀ m, m < 2 → StepPolls (stateAt (twoPolls broken [[], [], [], []]) m)) ∧
    statusOfWord (polledWord (stateAt (twoPolls broken [[], [], [], []]) 0)) = .dead := by
  refine ⟨fun m hm => ?_, by decide⟩
  have h : m = 0 ∨ m = 1 := by omega
  rcases h with rfl | rfl
  · exact ⟨_, .csrrw 10 0x015 0, [], rfl, rfl, rfl, rfl, rfl, rfl, .inl rfl⟩
  · exact ⟨_, .csrrw 10 0x015 0, [], rfl, rfl, rfl, rfl, rfl, rfl, .inl rfl⟩

/-- The fetched poll of the middle clause, with `rd` a register and with `rd` = `x0` (the first word of the loop). -/
theorem witness_PollingStepsReturnThePollTrace_fetched :
    (fetch (esPhase deadHart) = .next [0x73, 0x15, 0x50, 0x01] ∧
      decode [0x73, 0x15, 0x50, 0x01] = .ok (.csrrw 10 0x015 0, []) ∧ csrOf (.csrrw 10 0x015 0) = 0x015 ∧
      isReadWrite (.csrrw 10 0x015 0) = true ∧ rdOf (.csrrw 10 0x015 0) ≠ 0 ∧ MayPoll (esPhase deadHart)) ∧
    (fetch (esPhase (deadHart.withFetchWord 32 0x01501073)) = .next [0x73, 0x10, 0x50, 0x01] ∧
      decode [0x73, 0x10, 0x50, 0x01] = .ok (.csrrw 0 0x015 0, []) ∧ rdOf (.csrrw 0 0x015 0) = 0 ∧
      MayPoll (esPhase (deadHart.withFetchWord 32 0x01501073))) :=
  ⟨⟨rfl, rfl, rfl, rfl, by decide, rfl, rfl, .inl rfl⟩, rfl, rfl, rfl, rfl, rfl, .inl rfl⟩

/-- The hypotheses of `EsEventuallyReady` are met together: the loop of Laws/Run.lean, from `BIST`, with the premises. -/
def loopHart : State := { hartOf trapping .m false false false resting with mem := loopText }

theorem witness_EsEventuallyReady : Premises loopHart ∧ PollsForEver loopHart ∧ loopHart.es.opst = .bist :=
  ⟨⟨⟨fun _ => rfl, fun _ => rfl, fun h => absurd h (by decide)⟩,
    ⟨fun h => absurd h (by decide), fun h => absurd h (by decide)⟩,
    ⟨fun _ => rfl, fun h => absurd h (by decide)⟩,
    by unfold PcAligned; decide,
    ⟨by decide, by decide⟩,
    ⟨by decide, by decide⟩⟩,
    InLoop.pollsForEver ⟨rfl, rfl, rfl, rfl, rfl, rfl, rfl, .inl rfl⟩, rfl⟩

end Sys2Proof.Tests
end

/-! The statuses of the entropy source (10_state.md R26). -/

namespace Sys2Proof.Machine

/-- The success test, as the proposition it decides; statements about a polled word rewrite with it. -/
@[simp] theorem isSuccess_iff (o : Opst) : isSuccess o = true ↔ o = .es16 :=
  decide_eq_true_iff

/-- Settles O39: each code is the equation of `opstCode` for its status, and success is the test for `ES16`. -/
theorem opstEncodings : Obligations.OpstEncodings :=
  ⟨rfl, rfl, rfl, rfl, isSuccess_iff⟩

end Sys2Proof.Machine

/-! Read-write and read-only instructions, told apart by their words (30_encoding.md R73, R75). -/

namespace Sys2Proof.Machine

open Sys2Proof.Laws.RowBits (Statement rowFunct3)

/-- The laws of the six rows as one, for statements about every instruction. -/
theorem encode_rowBits (i : Instr) : Statement i := by
  cases i with
  | csrrw rd csr rs1 => exact Laws.RowBits.csrrw rd csr rs1
  | csrrs rd csr rs1 => exact Laws.RowBits.csrrs rd csr rs1
  | csrrc rd csr rs1 => exact Laws.RowBits.csrrc rd csr rs1
  | csrrwi rd csr uimm => exact Laws.RowBits.csrrwi rd csr uimm
  | csrrsi rd csr uimm => exact Laws.RowBits.csrrsi rd csr uimm
  | csrrci rd csr uimm => exact Laws.RowBits.csrrci rd csr uimm

theorem funct3Field_encode (i : Instr) : funct3Field (encode i) = rowFunct3 i := by
  obtain ⟨-, hf, -⟩ := encode_rowBits i
  exact hf

/-- No bit of a register number or of an immediate that fits is lost in bits 19:15. -/
theorem srcField_encode_ne_zero_iff {i : Instr} (h : WellFormed i) :
    srcField (encode i) ≠ 0 ↔ fieldNonzero (srcOf i) = true := by
  obtain ⟨-, -, hsrc⟩ := encode_rowBits i
  rw [ne_eq, hsrc h, Bool.not_eq_false]

/-- A replace form always writes; a set or clear form writes where its source field is not zero. -/
theorem isWrite_iff (op : CsrOp) (src : CsrSrc) :
    isWrite op src = true ↔ op = .replace ∨ fieldNonzero src = true := by
  cases op <;> simp [isWrite]

/-- The rows 001 and 101 are the replace forms. -/
theorem opOf_eq_replace_iff (i : Instr) :
    opOf i = .replace ↔ rowFunct3 i = 0b001#3 ∨ rowFunct3 i = 0b101#3 := by
  cases i <;> simp [opOf, rowFunct3]

/-- Settles O6: the operation is read off `funct3` and the source field off bits 19:15, and these two decide. -/
theorem writeFormIsDecidedByTheEncoding : Obligations.WriteFormIsDecidedByTheEncoding := by
  intro i hwf
  change isReadWrite i = true ↔
    funct3Field (encode i) = 0b001#3 ∨ funct3Field (encode i) = 0b101#3 ∨ srcField (encode i) ≠ 0
  rw [isReadWrite, isWrite_iff, opOf_eq_replace_iff, funct3Field_encode, srcField_encode_ne_zero_iff hwf, or_assoc]

end Sys2Proof.Machine

/-! What a poll returns and leaves, status by status, and that every permitted access to `seed` is one
(41_seed_polling.md R110 to R113). -/

namespace Sys2Proof.Machine

open Sys2Proof.Safety

/-! The word and the source. -/

theorem seedWord_of_es16 {es : Es} (d : PollDraw) (h : es.opst = .es16) :
    seedWord es d = 0b10#2 ++ d.rsvd ++ d.custom ++ es.entropy := by
  simp [seedWord, h, opstCode]

theorem seedWord_of_ne_es16 {es : Es} (d : PollDraw) (h : es.opst ≠ .es16) :
    seedWord es d = opstCode es.opst ++ d.rsvd ++ d.custom ++ 0x0000#16 := by
  simp [seedWord, h]

theorem pollEs_of_bist {es : Es} (d : PollDraw) (h : es.opst = .bist) :
    pollEs es d = { es with bistLatched := false } := by
  simp [pollEs, h]

theorem pollEs_of_wait {es : Es} (d : PollDraw) (h : es.opst = .wait) : pollEs es d = es := by
  simp [pollEs, h]

theorem pollEs_of_dead {es : Es} (d : PollDraw) (h : es.opst = .dead) : pollEs es d = es := by
  simp [pollEs, h]

theorem pollEs_wipe_to_wait {es : Es} {d : PollDraw} (h : es.opst = .es16) (hd : d.toWait = true) :
    pollEs es d = { es with opst := .wait, entropy := 0x0000#16 } := by
  simp [pollEs, h, hd]

theorem pollEs_wipe_to_fresh {es : Es} {d : PollDraw} (h : es.opst = .es16) (hd : d.toWait = false) :
    pollEs es d = { es with opst := .es16, entropy := d.fresh } := by
  simp [pollEs, h, hd]

/-- Outside `ES16` the most that a poll does is to clear the latch. -/
theorem pollEs_of_ne_es16 {es : Es} (d : PollDraw) (h : es.opst ≠ .es16) :
    (pollEs es d).opst = es.opst ∧ (pollEs es d).entropy = es.entropy := by
  cases ho : es.opst with
  | bist => rw [pollEs_of_bist d ho]; exact ⟨ho, rfl⟩
  | wait => rw [pollEs_of_wait d ho]; exact ⟨ho, rfl⟩
  | es16 => exact absurd ho h
  | dead => rw [pollEs_of_dead d ho]; exact ⟨ho, rfl⟩

@[simp] theorem pollDraw_writeReg (k : Reg) (v : Word) (s : State) : pollDraw (writeReg k v s) = pollDraw s := by
  simp only [pollDraw, writeReg_env]

@[simp] theorem nextPc_writeReg (k : Reg) (v : Word) (s : State) : nextPc (writeReg k v s) = nextPc s := by
  simp only [nextPc, writeReg_params, writeReg_pc]

/-! The instruction around the poll. -/

theorem completePoll_pollResult (rd : Reg) (s : State) : PollResult rd s (completePoll rd s) where
  register r := readReg_completePoll rd r s
  source := completePoll_es rd s
  draws := completePoll_env rd s
  pc := completePoll_pc rd s
  sseed := completePoll_sseed rd s
  useed := completePoll_useed rd s
  context :=
    { params := completePoll_params rd s
      priv := completePoll_priv rd s
      virt := completePoll_virt rd s
      trap := completePoll_trap rd s
      memory := fun addr => by rw [completePoll_mem] }

/-- A permitted read-write access is the poll into its `rd`: neither its operation nor its source operand is left in
the outcome (R112). -/
theorem exec_permitted_poll {i : Instr} {s : State} (hc : csrOf i = seedAddr) (hw : isReadWrite i = true)
    (hm : MayPoll s) : exec i s = .next (completePoll (rdOf i) s) := by
  obtain ⟨hzkr, hvirt, hmode⟩ := hm
  rw [exec_seed i s hc, (seedCheck_ok_iff _ _).2 ⟨hzkr, hw, hvirt, hmode⟩]

theorem mayPoll_writeReg {s : State} (k : Reg) (v : Word) (hm : MayPoll s) : MayPoll (writeReg k v s) := by
  simpa [MayPoll] using hm

/-- All that any instruction does to the source is one poll. -/
theorem exec_next_es {i : Instr} {s t : State} (h : exec i s = .next t) :
    t.es = s.es ∨ t.es = pollEs s.es (pollDraw s) := by
  rcases exec_next_cases h with ⟨-, -, rfl⟩ | ⟨-, -, -, rfl⟩ | ⟨-, e, rfl, -⟩
  · exact .inr (completePoll_es _ _)
  · exact .inl (completeMseccfg_es _ _ _ _)
  · exact .inl (enterTrap_es _ _ _)

/-- No instruction takes the source out of a status other than `ES16`, or gives it a word there. -/
theorem exec_next_es_of_ne_es16 {i : Instr} {s t : State} (h : exec i s = .next t) (hes : s.es.opst ≠ .es16) :
    t.es.opst = s.es.opst ∧ t.es.entropy = s.es.entropy := by
  rcases exec_next_es h with ht | ht
  · exact ⟨congrArg Es.opst ht, congrArg Es.entropy ht⟩
  · rw [ht]; exact pollEs_of_ne_es16 _ hes

/-- A register's value before the poll shows up after it in that register alone, and not there where it is `rd`. -/
theorem readReg_completePoll_writeReg (rd k : Reg) (v : Word) (s : State) {r : Reg} (hr : r ≠ k ∨ r = rd) :
    readReg (completePoll rd (writeReg k v s)) r = readReg (completePoll rd s) r := by
  rw [readReg_completePoll, readReg_completePoll, pollDraw_writeReg, writeReg_es]
  by_cases hrd : r = rd ∧ r ≠ 0
  · rw [if_pos hrd, if_pos hrd]
  · rw [if_neg hrd, if_neg hrd, readReg_writeReg, if_neg]
    rintro ⟨hk, h0⟩
    exact hr.elim (fun h => h hk) (fun h => hrd ⟨h, h0⟩)

/-- Settles O12: the access is `exec_permitted_poll`, and each status has its equation for the word and the source. -/
theorem seedPollByStatus : Obligations.SeedPollByStatus := by
  refine ⟨fun i s hc hw hm => ⟨_, exec_permitted_poll hc hw hm, completePoll_pollResult _ _⟩, fun s => ?_⟩
  refine ⟨fun ho => ⟨?_, pollEs_of_bist _ ho⟩, fun ho => ⟨?_, pollEs_of_wait _ ho⟩,
    fun ho => ⟨seedWord_of_es16 _ ho, pollEs_wipe_to_wait ho, pollEs_wipe_to_fresh ho⟩,
    fun ho => ⟨?_, pollEs_of_dead _ ho⟩, rfl⟩
  all_goals
    rw [seedPoll_word, seedWord_of_ne_es16 _ (by simp [ho]), ho]
    rfl

/-- Settles O13: the outcome of a permitted access is the poll into `rd`, in which the write operand does not occur. -/
theorem seedIgnoresTheWriteValue : Obligations.SeedIgnoresTheWriteValue := by
  refine ⟨fun i j s hi hj hrd hm hwi hwj => ?_, fun i s k v hc hm hw => ?_, fun i s t => exec_next_es_of_ne_es16⟩
  · rw [exec_permitted_poll hi hwi hm, exec_permitted_poll hj hwj hm, hrd]
  · refine ⟨_, _, exec_permitted_poll hc hw hm, exec_permitted_poll hc hw (mayPoll_writeReg k v hm), ?_⟩
    simp only [completePoll_es, completePoll_env, completePoll_pc, completePoll_priv, completePoll_virt,
      completePoll_sseed, completePoll_useed, completePoll_trap, completePoll_mem, writeReg_es, writeReg_env,
      writeReg_priv, writeReg_virt, writeReg_sseed, writeReg_useed, writeReg_trap, writeReg_mem, pollDraw_writeReg,
      nextPc_writeReg, true_and]
    exact fun r hr => readReg_completePoll_writeReg _ k v s hr

theorem extractLsb'_zext32 (w : BitVec 32) : (zext32 w).extractLsb' 0 32 = w := by
  apply BitVec.eq_of_getLsbD_eq
  intro k hk
  have hk' : k < 64 := by omega
  simp [zext32, hk, hk']

theorem getLsbD_zext32 (w : BitVec 32) {k : Nat} (hk : 32 ≤ k) : (zext32 w).getLsbD k = false := by
  simp [zext32, BitVec.getLsbD_of_ge w k hk]

/-- Settles O14: `rd` holds `zext32` of the word. -/
theorem polledWordIsZeroExtended : Obligations.PolledWordIsZeroExtended := by
  refine ⟨fun i s hc hw hm hrd => ⟨_, exec_permitted_poll hc hw hm, ?_⟩, rfl⟩
  rw [readReg_completePoll, if_pos ⟨rfl, hrd⟩]
  exact ⟨extractLsb'_zext32 _, fun k hk => getLsbD_zext32 _ hk⟩

end Sys2Proof.Machine

/-! The words of successive polls: what every trace keeps to, and a schedule and draws for every legal list of words
(41_seed_polling.md R117, R118, R122). -/

namespace Sys2Proof.Machine

open Sys2Proof.Safety

/-! A word of one of the four forms and its fields (10_state.md R25, R28). -/

section
variable (o : Opst) (r : BitVec 6) (c : BitVec 8) (e : BitVec 16)

theorem extract_status : (opstCode o ++ r ++ c ++ e).extractLsb' 30 2 = opstCode o :=
  calc
    _ = (opstCode o ++ r ++ c).extractLsb' 14 2 := BitVec.extractLsb'_append_eq_of_le (by decide)
    _ = (opstCode o ++ r).extractLsb' 6 2 := BitVec.extractLsb'_append_eq_of_le (by decide)
    _ = opstCode o := BitVec.extractLsb'_append_eq_left

theorem extract_rsvd : (opstCode o ++ r ++ c ++ e).extractLsb' 24 6 = r :=
  calc
    _ = (opstCode o ++ r ++ c).extractLsb' 8 6 := BitVec.extractLsb'_append_eq_of_le (by decide)
    _ = (opstCode o ++ r).extractLsb' 0 6 := BitVec.extractLsb'_append_eq_of_le (by decide)
    _ = r := BitVec.extractLsb'_append_eq_right

theorem extract_custom : (opstCode o ++ r ++ c ++ e).extractLsb' 16 8 = c :=
  calc
    _ = (opstCode o ++ r ++ c).extractLsb' 0 8 := BitVec.extractLsb'_append_eq_of_le (by decide)
    _ = c := BitVec.extractLsb'_append_eq_right

theorem extract_entropy : (opstCode o ++ r ++ c ++ e).extractLsb' 0 16 = e :=
  BitVec.extractLsb'_append_eq_right

theorem statusOfWord_fields : statusOfWord (opstCode o ++ r ++ c ++ e) = o := by
  have hf : (opstCode o ++ r ++ c ++ e : BitVec 32).extractLsb' 30 2 = opstCode o := extract_status o r c e
  rw [statusOfWord, hf]
  cases o <;> rfl

end

theorem seedWord_form (es : Es) (d : PollDraw) : SeedWordForm (seedWord es d) :=
  ⟨es.opst, d.rsvd, d.custom, _, rfl, fun h => if_neg (mt (isSuccess_iff _).1 h)⟩

@[simp] theorem statusOfWord_seedWord (es : Es) (d : PollDraw) : statusOfWord (seedWord es d) = es.opst :=
  statusOfWord_fields _ _ _ _

/-! `DEAD` is never left (R117). -/

theorem runEvents_dead (p : Params) (l : List EnvEvent) {es : Es} (h : es.opst = .dead) :
    (runEvents p l es).opst = .dead := by
  refine runEvents_induction (P := fun es => es.opst = .dead) p ?_ ?_ l es h
  · intro tr es es' hes hstep
    simp [esStep, hes] at hstep
  · intro es d _ hes
    rw [pollEs_of_dead d hes, hes]

theorem esPhase_dead {s : State} (h : s.es.opst = .dead) : (esPhase s).es.opst = .dead :=
  runEvents_dead _ _ h

theorem seedPoll_dead {s : State} (h : s.es.opst = .dead) : (seedPoll s).2.es.opst = .dead := by
  rw [seedPoll_es, pollEs_of_dead _ h, h]

/-! Every trace is legal. -/

theorem pollTrace_forall_form (n : Nat) (s : State) : ∀ w ∈ pollTrace n s, SeedWordForm w := by
  induction n generalizing s with
  | zero => exact List.forall_mem_nil _
  | succ n ih => exact List.forall_mem_cons.2 ⟨seedWord_form _ _, ih _⟩

theorem pollTrace_forall_dead (n : Nat) {s : State} (h : s.es.opst = .dead) :
    ∀ w ∈ pollTrace n s, statusOfWord w = .dead := by
  induction n generalizing s with
  | zero => exact List.forall_mem_nil _
  | succ n ih =>
    have hd := esPhase_dead h
    exact List.forall_mem_cons.2 ⟨(statusOfWord_seedWord _ _).trans hd, ih (esPhase_dead (seedPoll_dead hd))⟩

theorem legalTrace_pollTrace (n : Nat) (s : State) : LegalTrace (pollTrace n s) := by
  refine ⟨pollTrace_forall_form n s, ?_⟩
  induction n generalizing s with
  | zero => exact List.Pairwise.nil
  | succ n ih =>
    refine List.pairwise_cons.2 ⟨fun w hw hdead => ?_, ih _⟩
    have hd : (esPhase s).es.opst = .dead := (statusOfWord_seedWord _ _).symm.trans hdead
    exact pollTrace_forall_dead n (esPhase_dead (seedPoll_dead hd)) w hw

/-! Every legal list is a trace. The source is asked, before each poll, for the one transition that leads to the
status of the word; where it has that status already, or is `DEAD`, the table admits no such transition and the source
stays. Every wipe goes to `WAIT`, so between two polls the source is never in `ES16`. -/

/-- The transition that leads to the status, and to the entropy, of a word. -/
def transitionTo (w : BitVec 32) : EsTransition :=
  match statusOfWord w with
  | .bist => .toBist
  | .wait => .toWait
  | .es16 => .toEs16 (w.extractLsb' 0 16)
  | .dead => .toDead

/-- The draws of the poll that returns a word. -/
def drawFor (w : BitVec 32) : PollDraw where
  rsvd := w.extractLsb' 24 6
  custom := w.extractLsb' 16 8
  toWait := true
  fresh := 0

/-- The turns of the source about the polls that return the words of a list: `transitionTo` before, none after. -/
def scheduleFor : List (BitVec 32) → List (List EnvEvent)
  | [] => []
  | w :: l => [.es (transitionTo w)] :: [] :: scheduleFor l

/-- The script that makes successive polls return the words of a legal list. -/
def envFor (l : List (BitVec 32)) : Env where
  polls := 0
  pollScript := l.map drawFor
  ticks := 0
  esScript := scheduleFor l

/-- The source as it stands between two scripted polls: it can go to every status, if it is not `DEAD`. -/
structure Receptive (es : Es) : Prop where
  opst : es.opst ≠ .es16
  latch : es.bistLatched = false

/-- The next poll with the draws `drawFor w` returns `w`, and leaves a receptive source. -/
structure Returns (w : BitVec 32) (es : Es) : Prop where
  opst : es.opst = statusOfWord w
  entropy : es.opst = .es16 → es.entropy = w.extractLsb' 0 16
  latch : es.bistLatched = true → es.opst = .bist

theorem returns_of_receptive {w : BitVec 32} {es : Es} (h : Receptive es)
    (hdead : es.opst = .dead → statusOfWord w = .dead) : Returns w ((esStep (transitionTo w) es).getD es) := by
  obtain ⟨hes, hl⟩ := h
  cases ho : es.opst with
  | es16 => exact absurd ho hes
  | bist => constructor <;> cases hw : statusOfWord w <;> simp [transitionTo, esStep, ho, hw, hl]
  | wait => constructor <;> cases hw : statusOfWord w <;> simp [transitionTo, esStep, ho, hw, hl]
  | dead =>
    have hw := hdead ho
    constructor <;> simp [esStep, ho, hw, hl]

theorem Returns.receptive {w : BitVec 32} {es : Es} (h : Returns w es) : Receptive (pollEs es (drawFor w)) := by
  have hl : es.opst ≠ .bist → es.bistLatched = false := fun hb => by simpa using mt h.latch hb
  cases ho : es.opst with
  | bist => rw [pollEs_of_bist _ ho]; exact ⟨by simp [ho], rfl⟩
  | wait => rw [pollEs_of_wait _ ho]; exact ⟨by simp [ho], hl (by simp [ho])⟩
  | es16 => rw [pollEs_wipe_to_wait ho rfl]; exact ⟨by simp, hl (by simp [ho])⟩
  | dead => rw [pollEs_of_dead _ ho]; exact ⟨by simp [ho], hl (by simp [ho])⟩

theorem opst_dead_of_pollEs {es : Es} {d : PollDraw} (h : (pollEs es d).opst = .dead) : es.opst = .dead := by
  by_cases ho : es.opst = .es16
  · cases hd : d.toWait with
    | true => simp [pollEs_wipe_to_wait ho hd] at h
    | false => simp [pollEs_wipe_to_fresh ho hd] at h
  · rw [← (pollEs_of_ne_es16 d ho).1, h]

theorem Returns.seedWord_eq {w : BitVec 32} {es : Es} (h : Returns w es) (hw : SeedWordForm w) :
    seedWord es (drawFor w) = w := by
  obtain ⟨o, r, c, e, rfl, he⟩ := hw
  obtain ⟨hopst, hentropy, -⟩ := h
  have hr : (drawFor (opstCode o ++ r ++ c ++ e)).rsvd = r := extract_rsvd o r c e
  have hc : (drawFor (opstCode o ++ r ++ c ++ e)).custom = c := extract_custom o r c e
  rw [statusOfWord_fields] at hopst
  by_cases ho : es.opst = .es16
  · have hword : es.entropy = e := (hentropy ho).trans (extract_entropy o r c e)
    rw [seedWord_of_es16 _ ho, hr, hc, hword, ← hopst, ho]
    rfl
  · rw [seedWord_of_ne_es16 _ ho, hr, hc, he (hopst ▸ ho), hopst]
    rfl

theorem nextEvents_of_script {s : State} {e : List EnvEvent} {rest : List (List EnvEvent)}
    (h : s.env.esScript = e :: rest) : nextEvents s = e := by
  simp only [nextEvents, h]

theorem pollDraw_of_script {s : State} {d : PollDraw} {rest : List PollDraw} (h : s.env.pollScript = d :: rest) :
    pollDraw s = d := by
  simp only [pollDraw, h]

@[simp] theorem consumeDraw_pollScript (e : Env) : (consumeDraw e).pollScript = e.pollScript.drop 1 := rfl
@[simp] theorem consumeDraw_esScript (e : Env) : (consumeDraw e).esScript = e.esScript := rfl

/-- With the scripts of a legal list, successive polls return the list. -/
theorem pollTrace_of_script (l : List (BitVec 32)) {s : State} (hl : LegalTrace l) (hr : Receptive s.es)
    (hdead : s.es.opst = .dead → ∀ w ∈ l, statusOfWord w = .dead) (hdraws : s.env.pollScript = l.map drawFor)
    (hturns : s.env.esScript = scheduleFor l) : pollTrace l.length s = l := by
  induction l generalizing s with
  | nil => rfl
  | cons w l ih =>
    obtain ⟨hform, hpair⟩ := hl
    obtain ⟨hw, hform⟩ := List.forall_mem_cons.1 hform
    obtain ⟨hhead, hpair⟩ := List.pairwise_cons.1 hpair
    have hes : (esPhase s).es = (esStep (transitionTo w) s.es).getD s.es := by
      rw [esPhase_es, nextEvents_of_script hturns]; rfl
    have hret : Returns w (esPhase s).es :=
      hes ▸ returns_of_receptive hr (fun h => hdead h w List.mem_cons_self)
    have hdraw : pollDraw (esPhase s) = drawFor w := pollDraw_of_script hdraws
    have hafter : (esPhase (seedPoll (esPhase s)).2).es = pollEs (esPhase s).es (drawFor w) := by
      rw [esPhase_es, nextEvents_of_script (e := []) (rest := scheduleFor l) (by simp [hturns, scheduleFor]),
        seedPoll_es, hdraw]
      rfl
    have hword : (seedPoll (esPhase s)).1 = w := by rw [seedPoll_word, hdraw, hret.seedWord_eq hw]
    have htail : pollTrace l.length (esPhase (seedPoll (esPhase s)).2) = l := by
      refine ih ⟨hform, hpair⟩ (hafter ▸ hret.receptive) (fun h v hv => hhead v hv ?_) ?_ ?_
      · rw [← hret.opst]; exact opst_dead_of_pollEs (hafter ▸ h)
      · simp [hdraws]
      · simp [hturns, scheduleFor]
    exact congrArg₂ List.cons hword htail

theorem receptive_reset : Receptive Es.reset := ⟨by decide, rfl⟩

/-- Settles O44: every trace is legal from any state, and `envFor` scripts every legal list from reset. -/
theorem pollTracesAreExactlyTheLegalOnes : Obligations.PollTracesAreExactlyTheLegalOnes := by
  refine fun p l => ⟨fun ⟨env, h⟩ => h ▸ legalTrace_pollTrace _ _, fun hl => ⟨envFor l, ?_⟩⟩
  refine pollTrace_of_script l hl receptive_reset (fun h => ?_) rfl rfl
  exact absurd (show Es.reset.opst = .dead from h) (by decide)

end Sys2Proof.Machine

/-! The polls of `step` (41_seed_polling.md R121, R122; log 9). -/

namespace Sys2Proof.Machine

open Sys2Proof.Safety

/-- The two states agree in all that decides the words of later polls. -/
structure SameSource (s t : State) : Prop where
  params : t.params = s.params
  es : t.es = s.es
  env : t.env = s.env

theorem SameSource.esPhase {s t : State} (h : SameSource s t) : SameSource (esPhase s) (esPhase t) := by
  obtain ⟨hparams, hes, henv⟩ := h
  exact ⟨hparams, by simp [nextEvents, hparams, hes, henv], by simp [henv]⟩

theorem SameSource.pollDraw {s t : State} (h : SameSource s t) : pollDraw t = pollDraw s := by
  simp only [Machine.pollDraw, h.env]

theorem SameSource.word {s t : State} (h : SameSource s t) : (seedPoll t).1 = (seedPoll s).1 := by
  simp only [seedPoll_word, h.es, h.pollDraw]

theorem SameSource.seedPoll {s t : State} (h : SameSource s t) : SameSource (seedPoll s).2 (seedPoll t).2 :=
  ⟨h.params, by simp only [seedPoll_es, h.es, h.pollDraw], by simp only [seedPoll_env, h.env]⟩

theorem SameSource.pollTrace_eq (n : Nat) {s t : State} (h : SameSource s t) : pollTrace n t = pollTrace n s := by
  induction n generalizing s t with
  | zero => rfl
  | succ n ih => exact congrArg₂ List.cons h.esPhase.word (ih h.esPhase.seedPoll.esPhase)

theorem sameSource_completePoll (rd : Reg) (s : State) : SameSource (seedPoll s).2 (completePoll rd s) :=
  ⟨completePoll_params rd s, completePoll_es rd s, completePoll_env rd s⟩

/-- The state after a polling step continues the trace as the bare poll does. -/
theorem pollTrace_stateAfter (n : Nat) {s : State} (h : StepPolls s) :
    pollTrace n (stateAfter s) = pollTrace n (esPhase (seedPoll (esPhase s)).2) := by
  obtain ⟨rd, hstep⟩ := stepPolls_next h
  rw [stateAfter_of_next hstep]
  exact (sameSource_completePoll rd _).esPhase.pollTrace_eq n

theorem pollTrace_eq_polledWords (n : Nat) (s : State) (h : ∀ m, m < n → StepPolls (stateAt s m)) :
    pollTrace n s = (List.range n).map (fun m => polledWord (stateAt s m)) := by
  induction n generalizing s with
  | zero => rfl
  | succ n ih =>
    have hrest : ∀ m, m < n → StepPolls (stateAt (stateAfter s) m) := fun m hm => h (m + 1) (Nat.succ_lt_succ hm)
    have htail := (pollTrace_stateAfter n (h 0 n.succ_pos)).symm.trans (ih _ hrest)
    rw [List.range_succ_eq_map, List.map_cons, List.map_map]
    exact congrArg (List.cons (polledWord s)) htail

@[simp] theorem statusOfWord_polledWord (s : State) : statusOfWord (polledWord s) = (esPhase s).es.opst :=
  statusOfWord_seedWord _ _

/-- A step that finds the source `DEAD` after its first turn leaves it `DEAD`, whatever its outcome (R117). -/
theorem stateAfter_dead {s : State} (h : (esPhase s).es.opst = .dead) : (stateAfter s).es.opst = .dead := by
  rcases stateAfter_cases s with hnext | ⟨-, hstop⟩
  · obtain ⟨-, i, -, u, -, -, he, ht⟩ := step_next hnext
    obtain ⟨hu, -⟩ := exec_next_es_of_ne_es16 he (by simp only [h]; decide)
    rw [ht]; exact esPhase_dead (hu.trans h)
  · rw [hstop]; exact esPhase_dead h

/-- Once a step of a run finds the source `DEAD`, every later step does. -/
theorem stateAt_dead {s : State} {m k : Nat} (hmk : m ≤ k) (h : (esPhase (stateAt s m)).es.opst = .dead) :
    (esPhase (stateAt s k)).es.opst = .dead := by
  induction k, hmk using Nat.le_induction with
  | base => exact h
  | succ k _ ih => rw [stateAt_add_one]; exact esPhase_dead (stateAfter_dead ih)

/-- Settles O52: the polling step is `step_of_fetched_poll`, its word that of the trace, and `DEAD` is kept. -/
theorem pollingStepsReturnThePollTrace : Obligations.PollingStepsReturnThePollTrace := by
  refine ⟨pollTrace_eq_polledWords, fun s bytes rest i hf hd hc hw hm => ?_, fun s m k hmk _ _ hdead => ?_⟩
  · exact ⟨seedWord_form _ _, statusOfWord_polledWord s, _, step_of_fetched_poll hf hd hc hw hm,
      completePoll_pollResult _ _, fun r => readReg_completePoll (rdOf i) r (esPhase s)⟩
  · rw [statusOfWord_polledWord] at hdead ⊢
    exact stateAt_dead hmk hdead

end Sys2Proof.Machine

/-! Who may access `seed`: the access check's three answers as what an instruction does (43_access_control.md R160 to
R162, R170). -/

namespace Sys2Proof.Machine

open Sys2Proof.Safety

/-- Between the permitted poll and the virtual instruction exception of a guest with `sseed`, every access that is left
is illegal: a read-only form, and a read-write form that has neither. -/
theorem exec_seed_illegal {i : Instr} {s : State} (hc : csrOf i = seedAddr)
    (h : isReadWrite i = true → ¬ MayPoll s ∧ ¬ (s.virt = true ∧ s.sseed = true)) :
    exec i s = takeException .illegalInstruction (encode i) s := by
  rw [exec_seed i s hc]
  cases hk : seedCheck s (isReadWrite i) with
  | illegal => rfl
  | ok =>
    obtain ⟨hzkr, hw, hvirt, hmode⟩ := (seedCheck_ok_iff _ _).1 hk
    exact absurd ⟨hzkr, hvirt, hmode⟩ (h hw).1
  | virtual =>
    obtain ⟨-, hw, hguest⟩ := (seedCheck_virtual_iff _ _).1 hk
    exact absurd hguest (h hw).2

/-- The mode and the access bits play no part in a read-only form (R161). -/
theorem exec_seed_readOnly {i : Instr} {s : State} (hc : csrOf i = seedAddr) (hr : isReadWrite i = false) :
    exec i s = takeException .illegalInstruction (encode i) s :=
  exec_seed_illegal hc (fun hw => absurd hw (by simp [hr]))

/-- The one cause of a virtual instruction exception (R170). -/
theorem exec_seed_guest {i : Instr} {s : State} (hc : csrOf i = seedAddr) (hw : isReadWrite i = true)
    (hzkr : s.params.zkr = true) (hvirt : s.virt = true) (hsseed : s.sseed = true) :
    exec i s = takeException .virtualInstruction (encode i) s := by
  rw [exec_seed i s hc, (seedCheck_virtual_iff _ _).2 ⟨hzkr, hw, hvirt, hsseed⟩]

/-- Settles O7: each row is the permitted poll, the guest's exception, or one of the accesses that are left. -/
theorem seedAccessDecidesEverySeedInstruction : Obligations.SeedAccessDecidesEverySeedInstruction := by
  refine fun i s hc hzkr => ⟨exec_seed_readOnly hc, fun hw => ?_⟩
  have poll (hm : MayPoll s) : ∃ t, exec i s = .next t ∧ PollResult (rdOf i) s t :=
    ⟨_, exec_permitted_poll hc hw hm, completePoll_pollResult _ _⟩
  refine ⟨exec_seed_guest hc hw hzkr, fun hv hs => ?_, fun hv hp => poll ⟨hzkr, hv, .inl hp⟩,
    fun hv hp hs => poll ⟨hzkr, hv, .inr (.inl ⟨hp, hs⟩)⟩, fun hv hp hs => ?_,
    fun hv hp hu => poll ⟨hzkr, hv, .inr (.inr ⟨hp, hu⟩)⟩, fun hv hp hu => ?_⟩
  · exact exec_seed_illegal hc fun _ => by simp [MayPoll, hv, hs]
  · exact exec_seed_illegal hc fun _ => by simp [MayPoll, hv, hp, hs]
  · exact exec_seed_illegal hc fun _ => by simp [MayPoll, hv, hp, hu]

/-- Settles O8: the four forms have a source field of zero, so they are read-only. -/
theorem readOnlySeedFormsAreIllegal : Obligations.ReadOnlySeedFormsAreIllegal :=
  fun _ _ => ⟨⟨exec_seed_readOnly rfl rfl, exec_seed_readOnly rfl rfl, exec_seed_readOnly rfl rfl,
    exec_seed_readOnly rfl rfl⟩, fun hzkr hvirt hsseed _ hc hw => exec_seed_guest hc hw hzkr hvirt hsseed⟩

end Sys2Proof.Machine

/-! What an access to `mseccfg` reads and writes (43_access_control.md R163, R164). -/

namespace Sys2Proof.Machine

open Sys2Proof.Safety

/-- In M mode no operand and no value makes an access to `mseccfg` raise an exception. -/
theorem exec_mseccfg {i : Instr} {s : State} (hp : s.priv = .m) (hc : csrOf i = s.params.mseccfgAddr)
    (hne : s.params.mseccfgAddr ≠ seedAddr) :
    exec i s = .next (completeMseccfg (opOf i) (rdOf i) (srcOf i) s) := by
  rw [exec_eq_execCSR, execCSR, if_neg (hc ▸ hne), if_pos hc, if_pos hp]

/-- Beside `rd`, `pc` and the two access bits a completed access leaves everything as it was. -/
theorem completeMseccfg_mseccfgResult (op : CsrOp) (rd : Reg) (src : CsrSrc) (s : State) :
    MseccfgResult rd (completeMseccfg op rd src s).sseed (completeMseccfg op rd src s).useed s
      (completeMseccfg op rd src s) where
  register r := readReg_completeMseccfg op rd r src s
  sseed := rfl
  useed := rfl
  source := completeMseccfg_es op rd src s
  draws := completeMseccfg_env op rd src s
  pc := completeMseccfg_pc op rd src s
  context :=
    { params := completeMseccfg_params op rd src s
      priv := completeMseccfg_priv op rd src s
      virt := completeMseccfg_virt op rd src s
      trap := completeMseccfg_trap op rd src s
      memory := fun addr => by rw [completeMseccfg_mem] }

/-- A read-only form leaves the two bits too. -/
theorem completeMseccfg_readOnly {op : CsrOp} {src : CsrSrc} (rd : Reg) (s : State) (hr : isWrite op src = false) :
    MseccfgResult rd s.sseed s.useed s (completeMseccfg op rd src s) := by
  have hs : (completeMseccfg op rd src s).sseed = s.sseed := by simp [completeMseccfg_sseed, hr]
  have hu : (completeMseccfg op rd src s).useed = s.useed := by simp [completeMseccfg_useed, hr]
  simpa only [hs, hu] using completeMseccfg_mseccfgResult op rd src s

/-- A read-write form has the bits of `mseccfgWrite` of its new value. -/
theorem completeMseccfg_readWrite {op : CsrOp} {src : CsrSrc} (rd : Reg) (s : State) (hw : isWrite op src = true) :
    (completeMseccfg op rd src s).sseed = (mseccfgWrite (newValue op (mseccfgRead s) (srcValue s src)) s).sseed ∧
    (completeMseccfg op rd src s).useed = (mseccfgWrite (newValue op (mseccfgRead s) (srcValue s src)) s).useed := by
  simp [completeMseccfg_sseed, completeMseccfg_useed, hw]

theorem exec_mseccfg_readOnly {i : Instr} {s : State} (hp : s.priv = .m) (hc : csrOf i = s.params.mseccfgAddr)
    (hne : s.params.mseccfgAddr ≠ seedAddr) (hr : isReadWrite i = false) :
    ∃ t, exec i s = .next t ∧ MseccfgResult (rdOf i) s.sseed s.useed s t :=
  ⟨_, exec_mseccfg hp hc hne, completeMseccfg_readOnly _ _ hr⟩

/-- Bits 9 and 8 are all that a write takes from its value (R34). -/
theorem mseccfgWrite_congr {v v' : Word} (s : State) (h9 : v'.getLsbD 9 = v.getLsbD 9)
    (h8 : v'.getLsbD 8 = v.getLsbD 8) : mseccfgWrite v' s = mseccfgWrite v s := by
  simp only [mseccfgWrite, h9, h8]

/-- Settles O20: the bits are those of `mseccfgRead_bit`, and each of the four forms is read-only. -/
theorem mseccfgReadsItsTwoBits : Obligations.MseccfgReadsItsTwoBits := by
  refine ⟨fun s => ⟨?_, ?_, fun k h9 h8 => ?_⟩, fun s hs hu => ?_, fun s rd hp hne => ?_⟩
  · rw [mseccfgRead_bit]; simp
  · rw [mseccfgRead_bit]; simp
  · rw [mseccfgRead_bit]; simp [h9, h8]
  · simp [mseccfgRead, hs, hu]
  · exact ⟨exec_mseccfg_readOnly hp rfl hne rfl, exec_mseccfg_readOnly hp rfl hne rfl,
      exec_mseccfg_readOnly hp rfl hne rfl, exec_mseccfg_readOnly hp rfl hne rfl⟩

/-- Settles O21: a hardwired bit has `false` for its writability, and an access of M mode is `exec_mseccfg`. -/
theorem mseccfgWriteSetsItsTwoBits : Obligations.MseccfgWriteSetsItsTwoBits := by
  refine ⟨fun v s => ⟨fun hs => ?_, fun hs => ?_, fun hu => ?_, fun hu => ?_, rfl, fun _ => mseccfgWrite_congr s⟩,
    fun s i hp hc hne => ⟨_, exec_mseccfg hp hc hne, fun hw => ⟨_, rfl, completeMseccfg_readWrite _ s hw⟩⟩⟩
  · rw [mseccfgWrite_sseed, hs, Bool.true_and]
  · rw [mseccfgWrite_sseed, hs, Bool.false_and]
  · rw [mseccfgWrite_useed, hu, Bool.true_and]
  · rw [mseccfgWrite_useed, hu, Bool.false_and]

end Sys2Proof.Machine

/-! Which exception an instruction raises, and where (60_exceptions.md R180, R181). -/

namespace Sys2Proof.Machine

open Sys2Proof.Safety

theorem takeException_terminal (e : Exception) (w : BitVec 32) {s : State} (hm : s.params.trapMode = .terminal) :
    takeException e w s = .fault (.trapped e s.pc w s.priv s.virt) := by
  simp only [takeException, hm]

/-- What an instruction stops with is the exception that it took. -/
theorem takeException_trapped {e e' : Exception} {w w' : BitVec 32} {pc : Word} {priv : Priv} {virt : Bool} {s : State}
    (h : takeException e w s = .fault (.trapped e' pc w' priv virt)) : e' = e := by
  rcases takeException_cases e w s with ⟨-, ht⟩ | ⟨-, ht⟩
  · rw [ht] at h; cases h; rfl
  · rw [ht] at h; cases h

/-- Where an exception comes from: one of the two refusals of the access check of `seed`, or an access to `mseccfg`
outside M mode. -/
theorem exec_trapped_cases {i : Instr} {e : Exception} {w : BitVec 32} {pc : Word} {priv : Priv} {virt : Bool}
    {s : State} (h : exec i s = .fault (.trapped e pc w priv virt)) :
    (csrOf i = seedAddr ∧ seedCheck s (isReadWrite i) = .illegal ∧ e = .illegalInstruction) ∨
    (csrOf i = seedAddr ∧ seedCheck s (isReadWrite i) = .virtual ∧ e = .virtualInstruction) ∨
    (csrOf i = s.params.mseccfgAddr ∧ s.priv ≠ .m ∧ e = .illegalInstruction) := by
  by_cases hc : csrOf i = seedAddr
  · rw [exec_seed i s hc] at h
    cases hk : seedCheck s (isReadWrite i) with
    | illegal => rw [hk] at h; exact .inl ⟨hc, rfl, takeException_trapped h⟩
    | virtual => rw [hk] at h; exact .inr (.inl ⟨hc, rfl, takeException_trapped h⟩)
    | ok => rw [hk] at h; cases h
  · rw [exec_eq_execCSR, execCSR, if_neg hc] at h
    split_ifs at h with ha hp
    exact .inr (.inr ⟨ha, hp, takeException_trapped h⟩)

/-- The guest's access with `sseed` is the one cause in the hardware alone (R181). -/
theorem exec_virtualInstruction_iff (i : Instr) {s : State} (hm : s.params.trapMode = .terminal) :
    exec i s = .fault (.trapped .virtualInstruction s.pc (encode i) s.priv s.virt) ↔
      s.params.zkr = true ∧ csrOf i = seedAddr ∧ isReadWrite i = true ∧ s.virt = true ∧ s.sseed = true := by
  constructor
  · intro h
    rcases exec_trapped_cases h with ⟨-, -, he⟩ | ⟨hc, hk, -⟩ | ⟨-, -, he⟩
    · cases he
    · obtain ⟨hzkr, hw, hguest⟩ := (seedCheck_virtual_iff _ _).1 hk
      exact ⟨hzkr, hc, hw, hguest⟩
    · cases he
  · rintro ⟨hzkr, hc, hw, hvirt, hsseed⟩
    rw [exec_seed_guest hc hw hzkr hvirt hsseed, takeException_terminal _ _ hm]

/-- Settles O30: the one cause is `exec_virtualInstruction_iff`, and a hart in a virtual mode has the H extension. -/
theorem virtualInstructionExactlyWhen : Obligations.VirtualInstructionExactlyWhen := by
  intro i s hmode hm
  have hiff := exec_virtualInstruction_iff i hm
  refine ⟨hiff, fun h => ?_⟩
  obtain ⟨-, -, -, hvirt, -⟩ := hiff.1 h
  exact (hmode.virtual hvirt).1

end Sys2Proof.Machine

/-! The decoder and the encoder undo each other, and the map of opcodes that both follow (30_encoding.md R70 to R73,
R76). -/

namespace Sys2Proof

open Sys2Proof.Machine

/-! Words, fields and bytes. -/

/-- Two vectors put together give both back. -/
theorem append_eq_append_iff {m n : Nat} {x x' : BitVec m} {y y' : BitVec n} :
    x ++ y = x' ++ y' ↔ x = x' ∧ y = y' := by
  refine ⟨fun h => ⟨?_, ?_⟩, fun ⟨hx, hy⟩ => hx ▸ hy ▸ rfl⟩
  · simpa only [BitVec.extractLsb'_append_eq_left] using congrArg (BitVec.extractLsb' n m) h
  · simpa only [BitVec.extractLsb'_append_eq_right] using congrArg (BitVec.extractLsb' 0 n) h

/-- The five fields of a word side by side, the opcode as a field of its own (R71). -/
def joinFields (csr : BitVec 12) (src : BitVec 5) (funct3 : BitVec 3) (rd : BitVec 5) (opcode : BitVec 7) :
    BitVec 32 :=
  csr ++ src ++ funct3 ++ rd ++ opcode

theorem packFields_eq_joinFields (csr : Nat) (src : BitVec 5) (f : BitVec 3) (rd : Reg) :
    packFields csr src f rd = joinFields (BitVec.ofNat 12 csr) src f (fieldOfReg rd) systemOpcode := rfl

/-- Every bit of a word is in one of its five fields. -/
theorem joinFields_fields (w : BitVec 32) :
    joinFields (w.extractLsb' 20 12) (srcField w) (funct3Field w) (rdField w) (opcodeField w) = w := by
  rw [joinFields, srcField, funct3Field, rdField, opcodeField,
    BitVec.extractLsb'_append_extractLsb'_eq_extractLsb' (by rfl),
    BitVec.extractLsb'_append_extractLsb'_eq_extractLsb' (by rfl),
    BitVec.extractLsb'_append_extractLsb'_eq_extractLsb' (by rfl),
    BitVec.extractLsb'_append_extractLsb'_eq_extractLsb' (by rfl)]
  exact BitVec.extractLsb'_eq_self

section
variable {c c' : BitVec 12} {s s' : BitVec 5} {f f' : BitVec 3} {r r' : BitVec 5} {o o' : BitVec 7}

theorem joinFields_inj :
    joinFields c s f r o = joinFields c' s' f' r' o' ↔ c = c' ∧ s = s' ∧ f = f' ∧ r = r' ∧ o = o' := by
  have h : c ++ s ++ f ++ r ++ o = c' ++ s' ++ f' ++ r' ++ o' ↔ (((c = c' ∧ s = s') ∧ f = f') ∧ r = r') ∧ o = o' := by
    simp only [append_eq_append_iff]
  simp only [and_assoc] at h
  exact h

theorem joinFields_and :
    joinFields c s f r o &&& joinFields c' s' f' r' o' =
      joinFields (c &&& c') (s &&& s') (f &&& f') (r &&& r') (o &&& o') := by
  have h : (c ++ s ++ f ++ r ++ o) &&& (c' ++ s' ++ f' ++ r' ++ o') =
      (c &&& c') ++ (s &&& s') ++ (f &&& f') ++ (r &&& r') ++ (o &&& o') := by
    simp only [BitVec.and_append]
  exact h

end

theorem wordOfBytes_bytesOfWord (w : BitVec 32) :
    wordOfBytes (w.extractLsb' 0 8) (w.extractLsb' 8 8) (w.extractLsb' 16 8) (w.extractLsb' 24 8) = w := by
  rw [wordOfBytes, BitVec.extractLsb'_append_extractLsb'_eq_extractLsb' (by rfl),
    BitVec.extractLsb'_append_extractLsb'_eq_extractLsb' (by rfl),
    BitVec.extractLsb'_append_extractLsb'_eq_extractLsb' (by rfl)]
  exact BitVec.extractLsb'_eq_self

theorem wordOfBytes_inj {a0 a1 a2 a3 b0 b1 b2 b3 : Byte} (h : wordOfBytes a0 a1 a2 a3 = wordOfBytes b0 b1 b2 b3) :
    a0 = b0 ∧ a1 = b1 ∧ a2 = b2 ∧ a3 = b3 := by
  obtain ⟨h, h0⟩ := append_eq_append_iff.1 (show a3 ++ a2 ++ a1 ++ a0 = b3 ++ b2 ++ b1 ++ b0 from h)
  obtain ⟨h, h1⟩ := append_eq_append_iff.1 h
  obtain ⟨h3, h2⟩ := append_eq_append_iff.1 h
  exact ⟨h0, h1, h2, h3⟩

theorem bytesOfWord_wordOfBytes (b0 b1 b2 b3 : Byte) : bytesOfWord (wordOfBytes b0 b1 b2 b3) = [b0, b1, b2, b3] := by
  obtain ⟨h0, h1, h2, h3⟩ := wordOfBytes_inj (wordOfBytes_bytesOfWord (wordOfBytes b0 b1 b2 b3))
  rw [bytesOfWord, h0, h1, h2, h3]

@[simp] theorem regOfField_fieldOfReg (r : Reg) : regOfField (fieldOfReg r) = r := by
  revert r; decide

@[simp] theorem fieldOfReg_regOfField (f : BitVec 5) : fieldOfReg (regOfField f) = f := by
  revert f; decide

theorem funct3_cases (f : BitVec 3) :
    f = 0b000#3 ∨ f = 0b001#3 ∨ f = 0b010#3 ∨ f = 0b011#3 ∨ f = 0b100#3 ∨ f = 0b101#3 ∨ f = 0b110#3 ∨
      f = 0b111#3 := by
  revert f; decide

theorem csrField_lt (w : BitVec 32) : csrField w < 4096 := (w.extractLsb' 20 12).isLt

/-- The operand fields of a row's word pack to the word again. -/
theorem packFields_fields {w : BitVec 32} {f : BitVec 3} (h : opcodeField w = systemOpcode ∧ funct3Field w = f) :
    packFields (csrField w) (srcField w) f (regOfField (rdField w)) = w := by
  obtain ⟨hop, hf⟩ := h
  rw [packFields_eq_joinFields, fieldOfReg_regOfField, csrField, BitVec.ofNat_toNat, BitVec.setWidth_eq, ← hop, ← hf,
    joinFields_fields]

/-! The map. -/

/-- A `match` word of R73 under its mask fixes the opcode and `funct3`, and no operand field. -/
theorem and_matchMask_eq_iff (w : BitVec 32) (f : BitVec 3) :
    w &&& 0x0000707F#32 = joinFields 0#12 0#5 f 0#5 systemOpcode ↔
      opcodeField w = systemOpcode ∧ funct3Field w = f := by
  have hmask : 0x0000707F#32 = joinFields 0#12 0#5 (BitVec.allOnes 3) 0#5 (BitVec.allOnes 7) := rfl
  conv_lhs => rw [← joinFields_fields w, hmask, joinFields_and]
  simp only [joinFields_inj, BitVec.and_zero, BitVec.and_allOnes, true_and]
  exact and_comm

theorem and_opcodeMask_eq_iff (w : BitVec 32) : w &&& 0x7F#32 = 0x73#32 ↔ opcodeField w = systemOpcode := by
  have hmask : 0x7F#32 = joinFields 0#12 0#5 0#3 0#5 (BitVec.allOnes 7) := rfl
  have hmatch : 0x73#32 = joinFields 0#12 0#5 0#3 0#5 systemOpcode := rfl
  conv_lhs => rw [← joinFields_fields w, hmask, joinFields_and, hmatch]
  simp only [joinFields_inj, BitVec.and_zero, BitVec.and_allOnes, true_and]

theorem decodeWord_of_not_system {w : BitVec 32} (h : opcodeField w ≠ systemOpcode) :
    decodeWord w = .error (.notSystemOpcode w) :=
  if_neg h

/-- The one place where the eight codes are gone through. -/
theorem decodeWord_eq_ok_iff {w : BitVec 32} {i : Instr} : decodeWord w = .ok i ↔ opcodeField w = systemOpcode ∧
    ((funct3Field w = 0b001#3 ∧ i = .csrrw (regOfField (rdField w)) (csrField w) (regOfField (srcField w))) ∨
     (funct3Field w = 0b010#3 ∧ i = .csrrs (regOfField (rdField w)) (csrField w) (regOfField (srcField w))) ∨
     (funct3Field w = 0b011#3 ∧ i = .csrrc (regOfField (rdField w)) (csrField w) (regOfField (srcField w))) ∨
     (funct3Field w = 0b101#3 ∧ i = .csrrwi (regOfField (rdField w)) (csrField w) (srcField w).toNat) ∨
     (funct3Field w = 0b110#3 ∧ i = .csrrsi (regOfField (rdField w)) (csrField w) (srcField w).toNat) ∨
     (funct3Field w = 0b111#3 ∧ i = .csrrci (regOfField (rdField w)) (csrField w) (srcField w).toNat)) := by
  by_cases hop : opcodeField w = systemOpcode
  · rcases funct3_cases (funct3Field w) with hf | hf | hf | hf | hf | hf | hf | hf <;>
      simp [decodeWord, hop, hf, eq_comm]
  · simp [decodeWord_of_not_system hop, hop]

/-- Settles O3: a masked word equal to a `match` word says the opcode and `funct3` of its row. -/
theorem decodeFollowsTheOpcodeMap : Obligations.DecodeFollowsTheOpcodeMap := by
  intro w i
  have hrow (m : BitVec 32) (f : BitVec 3) (hm : m = joinFields 0#12 0#5 f 0#5 systemOpcode) :
      w &&& 0x0000707F#32 = m ↔ opcodeField w = systemOpcode ∧ funct3Field w = f := hm ▸ and_matchMask_eq_iff w f
  rw [hrow 0x1073#32 1#3 rfl, hrow 0x2073#32 2#3 rfl, hrow 0x3073#32 3#3 rfl, hrow 0x5073#32 5#3 rfl,
    hrow 0x6073#32 6#3 rfl, hrow 0x7073#32 7#3 rfl, decodeWord_eq_ok_iff]
  simp only [and_or_left, ← and_assoc]
  rfl

/-! Both ways round. -/

theorem csrOf_lt {i : Instr} (h : WellFormed i) : csrOf i < 4096 := by
  cases i <;> simp_all [WellFormed, Instr.wf, csrInRange, csrOf]

/-- A SYSTEM word packed from the fields of a row is decoded as that row's instruction, its fields read back. -/
theorem decodeWord_encode {i : Instr} (h : WellFormed i) : decodeWord (encode i) = .ok i := by
  have hcsr := csrOf_lt h
  cases i with
  | csrrw rd csr rs1 | csrrs rd csr rs1 | csrrc rd csr rs1 =>
    simp [encode, decodeWord, opcodeField_packFields, funct3Field_packFields, rdField_packFields,
      srcField_packFields, csrField_packFields csr _ _ _ hcsr]
  | csrrwi rd csr uimm | csrrsi rd csr uimm | csrrci rd csr uimm =>
    have hu : uimm < 32 := Laws.RowBits.uimm_lt h
    simp [encode, decodeWord, opcodeField_packFields, funct3Field_packFields, rdField_packFields,
      srcField_packFields, csrField_packFields csr _ _ _ hcsr, Nat.mod_eq_of_lt hu]

/-- The decoder answers no operand that a field could not hold. -/
theorem wellFormed_of_decodeWord {w : BitVec 32} {i : Instr} (h : decodeWord w = .ok i) : WellFormed i := by
  have hcsr := csrField_lt w
  have hsrc := (srcField w).isLt
  obtain ⟨-, ⟨-, rfl⟩ | ⟨-, rfl⟩ | ⟨-, rfl⟩ | ⟨-, rfl⟩ | ⟨-, rfl⟩ | ⟨-, rfl⟩⟩ := decodeWord_eq_ok_iff.1 h <;>
    simp [WellFormed, Instr.wf, csrInRange, uimmInRange, hcsr, hsrc]

/-- Every bit of an accepted word is in the instruction. -/
theorem encode_of_decodeWord {w : BitVec 32} {i : Instr} (h : decodeWord w = .ok i) : encode i = w := by
  obtain ⟨hop, ⟨hf, rfl⟩ | ⟨hf, rfl⟩ | ⟨hf, rfl⟩ | ⟨hf, rfl⟩ | ⟨hf, rfl⟩ | ⟨hf, rfl⟩⟩ := decodeWord_eq_ok_iff.1 h <;>
    simp only [encode, fieldOfReg_regOfField, BitVec.ofNat_toNat, BitVec.setWidth_eq, packFields_fields ⟨hop, hf⟩]

theorem decode_bytesOfWord {w : BitVec 32} {i : Instr} (h : decodeWord w = .ok i) (rest : List Byte) :
    decode (bytesOfWord w ++ rest) = .ok (i, rest) := by
  show decode (_ :: _ :: _ :: _ :: rest) = _
  simp only [decode, wordOfBytes_bytesOfWord, h]

theorem decode_eq_ok {bs rest : List Byte} {i : Instr} (h : decode bs = .ok (i, rest)) :
    ∃ b0 b1 b2 b3, bs = b0 :: b1 :: b2 :: b3 :: rest ∧ decodeWord (wordOfBytes b0 b1 b2 b3) = .ok i := by
  unfold decode at h
  split at h
  · split at h
    · rename_i hw
      cases h
      exact ⟨_, _, _, _, rfl, hw⟩
    · cases h
  · cases h

/-- Settles O1: the fields of the packed word are the operands, and the four bytes are the word. -/
theorem decodeInvertsEncode : Obligations.DecodeInvertsEncode :=
  fun _ rest h => decode_bytesOfWord (decodeWord_encode h) rest

/-- Settles O2: an accepted word is the encoding of its instruction, and the four bytes read are those of the word. -/
theorem decodedBytesAreTheEncoding : Obligations.DecodedBytesAreTheEncoding := by
  intro bs rest i h
  obtain ⟨b0, b1, b2, b3, rfl, hw⟩ := decode_eq_ok h
  refine ⟨wellFormed_of_decodeWord hw, ?_⟩
  rw [encode_of_decodeWord hw, bytesOfWord_wordOfBytes]
  rfl

/-- Settles O4: the two codes without a row and the other opcodes have an arm of `decodeWord` each, and `hartStep`
hands a rejection on. -/
theorem wordsOutsideTheTableAreRefused : Obligations.WordsOutsideTheTableAreRefused := by
  refine ⟨fun w hop hf => ?_, fun w hop => ?_, fun s bs r hfetch hdecode => ?_⟩
  · rw [and_opcodeMask_eq_iff] at hop
    rcases hf with hf | hf <;> simp [decodeWord, hop, funct3Field, hf]
  · exact decodeWord_of_not_system (mt (and_opcodeMask_eq_iff w).2 hop)
  · simp only [step, hartStep, hfetch, hdecode, closingTurn]

@[simp] theorem tableBytes_toNat (w : BitVec 32) : tableBytes 32 w.toNat = bytesOfWord w := by
  rw [tableBytes, Nat.mod_eq_of_lt w.isLt, BitVec.ofNat_toNat, BitVec.setWidth_eq]

theorem decodeTableWord_encode {i : Instr} (h : WellFormed i) : decodeTableWord 32 (encode i).toNat = some i := by
  have hd := decode_bytesOfWord (decodeWord_encode h) []
  rw [List.append_nil] at hd
  simp only [decodeTableWord, tableBytes_toNat, hd]

/-- Settles O5: each word is the encoding of its instruction. -/
theorem vectorWordsDecode : Obligations.VectorWordsDecode :=
  ⟨decodeTableWord_encode (i := .csrrw 10 0x015 0) rfl, decodeTableWord_encode (i := .csrrs 10 0x015 5) rfl,
    decodeTableWord_encode (i := .csrrc 0 0x747 5) rfl, decodeTableWord_encode (i := .csrrwi 10 0x015 31) rfl,
    decodeTableWord_encode (i := .csrrsi 10 0x015 1) rfl, decodeTableWord_encode (i := .csrrci 12 0x747 0) rfl⟩

end Sys2Proof

/-! What an instruction that has a next state can have done, and the premises of a run, kept by every step
(10_state.md R20 to R23, R28; 70_reset_and_hazards.md R216). -/

namespace Sys2Proof.Machine

open Sys2Proof.Safety

/-! A completed instruction: all that it can do to registers, `pc`, mode, trap registers and memory. -/

/-- `t` is `s` after a completed instruction with destination `rd`, up to the CSRs. -/
structure Completed (rd : Reg) (s t : State) : Prop where
  register : ∃ v, clip s.params.xlen v = v ∧ WritesOnly rd v s t
  pc : t.pc = nextPc s
  params : t.params = s.params
  priv : t.priv = s.priv
  virt : t.virt = s.virt
  trap : t.trap = s.trap
  mem : t.mem = s.mem

theorem completePoll_completed (rd : Reg) (s : State) : Completed rd s (completePoll rd s) where
  register := ⟨_, clip_zext32 _ _, fun r => readReg_completePoll rd r s⟩
  pc := completePoll_pc rd s
  params := completePoll_params rd s
  priv := completePoll_priv rd s
  virt := completePoll_virt rd s
  trap := completePoll_trap rd s
  mem := completePoll_mem rd s

theorem completeMseccfg_completed (op : CsrOp) (rd : Reg) (src : CsrSrc) (s : State) :
    Completed rd s (completeMseccfg op rd src s) where
  register := ⟨_, clip_mseccfgRead _ s, fun r => readReg_completeMseccfg op rd r src s⟩
  pc := completeMseccfg_pc op rd src s
  params := completeMseccfg_params op rd src s
  priv := completeMseccfg_priv op rd src s
  virt := completeMseccfg_virt op rd src s
  trap := completeMseccfg_trap op rd src s
  mem := completeMseccfg_mem op rd src s

/-- An instruction that goes on has completed, or, in a composed model, has entered a trap. -/
theorem exec_next_completed_or_trap {i : Instr} {s t : State} (h : exec i s = .next t) :
    Completed (rdOf i) s t ∨ (s.params.trapMode = .privileged ∧ ∃ e, t = enterTrap e (encode i) s) := by
  rcases exec_next_cases h with ⟨-, -, rfl⟩ | ⟨-, -, -, rfl⟩ | ⟨hm, e, ht, -⟩
  · exact .inl (completePoll_completed _ _)
  · exact .inl (completeMseccfg_completed _ _ _ _)
  · exact .inr ⟨hm, e, ht⟩

theorem Completed.readReg_ne {rd r : Reg} {s t : State} (h : Completed rd s t) (hr : r ≠ rd ∨ r = 0) :
    readReg t r = readReg s r := by
  obtain ⟨v, -, hreg⟩ := h.register
  rw [hreg r, if_neg (by tauto)]

theorem Completed.sameContext {rd : Reg} {s t : State} (h : Completed rd s t) : SameContext s t :=
  ⟨h.params, h.priv, h.virt, h.trap, fun addr => by rw [h.mem]⟩

theorem nextPc_toNat (s : State) : (nextPc s).toNat = (s.pc.toNat + 4) % 2 ^ s.params.xlen.bits := by
  rw [nextPc, clip_toNat, BitVec.toNat_add]
  exact Nat.mod_mod_of_dvd _ (pow_dvd_pow 2 (by cases s.params.xlen <;> decide))

/-- Settles O36: in the hardware alone there is no trap entry, so the instruction has completed. -/
theorem completedInstructionFrame : Obligations.CompletedInstructionFrame := by
  intro i s t hmode hexec
  rcases exec_next_completed_or_trap hexec with h | ⟨hm, -⟩
  · exact ⟨fun r hr => h.readReg_ne (.inl hr), readReg_zero t, by rw [h.pc, nextPc_toNat], h.sameContext⟩
  · rw [hmode] at hm; cases hm

/-- Settles O37: the one register that a completed instruction writes is `rd`, and a trap entry writes none. -/
theorem destinationX0WritesNoRegister : Obligations.DestinationX0WritesNoRegister := by
  intro i s t hrd hexec r
  rcases exec_next_completed_or_trap hexec with h | ⟨-, e, rfl⟩
  · exact h.readReg_ne (by rw [hrd]; exact (eq_or_ne r 0).symm)
  · exact readReg_enterTrap _ _ _ _

/-! A trap entry: the mode it enters and the address it goes to. -/

theorem enterTrap_of_m {e : Exception} {s : State} (w : BitVec 32) (h : trapLevel e s = .m) :
    enterTrap e w s = { s with
      trap := { s.trap with m := saveTrap e w s s.trap.m, mpv := s.virt }
      priv := .m
      virt := false
      pc := tvecBase s.params.xlen s.trap.m.tvec } := by
  simp only [enterTrap, h]

theorem enterTrap_of_s {e : Exception} {s : State} (w : BitVec 32) (h : trapLevel e s = .s) :
    enterTrap e w s = { s with
      trap := { s.trap with s := saveTrap e w s s.trap.s, spv := s.virt }
      priv := .s
      virt := false
      pc := tvecBase s.params.xlen s.trap.s.tvec } := by
  simp only [enterTrap, h]

theorem enterTrap_of_vs {e : Exception} {s : State} (w : BitVec 32) (h : trapLevel e s = .vs) :
    enterTrap e w s = { s with
      trap := { s.trap with vs := saveTrap e w s s.trap.vs }
      priv := .s
      pc := tvecBase s.params.xlen s.trap.vs.tvec } := by
  simp only [enterTrap, h]

theorem enterTrap_pc (e : Exception) (w : BitVec 32) (s : State) :
    ∃ tvec, (enterTrap e w s).pc = tvecBase s.params.xlen tvec := by
  cases h : trapLevel e s with
  | m => exact ⟨_, by rw [enterTrap_of_m w h]⟩
  | s => exact ⟨_, by rw [enterTrap_of_s w h]⟩
  | vs => exact ⟨_, by rw [enterTrap_of_vs w h]⟩

/-- The mode that takes a trap exists. -/
theorem enterTrap_wellFormedMode (e : Exception) (w : BitVec 32) {s : State} (h : WellFormedMode s) :
    WellFormedMode (enterTrap e w s) := by
  rcases trapLevel_cases e s with hl | ⟨hl, hS, -⟩ | ⟨hl, hS, -, hv, -⟩
  · rw [enterTrap_of_m w hl]; exact ⟨nofun, nofun, nofun⟩
  · rw [enterTrap_of_s w hl]; exact ⟨fun _ => hS, nofun, nofun⟩
  · rw [enterTrap_of_vs w hl]; exact ⟨fun _ => hS, nofun, fun _ => ⟨(h.virtual hv).1, nofun⟩⟩

/-! The entropy source's own premise (10_state.md R28). -/

theorem pollEs_esInvariant {es : Es} (d : PollDraw) (h : EsInvariant es) : EsInvariant (pollEs es d) := by
  obtain ⟨hent, hlatch⟩ := h
  cases ho : es.opst with
  | bist => rw [pollEs_of_bist d ho]; exact ⟨hent, nofun⟩
  | wait => rw [pollEs_of_wait d ho]; exact ⟨hent, hlatch⟩
  | dead => rw [pollEs_of_dead d ho]; exact ⟨hent, hlatch⟩
  | es16 =>
    have hl : es.bistLatched ≠ true := fun hl => by simpa [ho] using hlatch hl
    cases hd : d.toWait with
    | true => rw [pollEs_wipe_to_wait ho hd]; exact ⟨fun _ => rfl, fun h => absurd h hl⟩
    | false => rw [pollEs_wipe_to_fresh ho hd]; exact ⟨fun h => absurd rfl h, fun h => absurd h hl⟩

theorem esStep_esInvariant {tr : EsTransition} {es es' : Es} (h : EsInvariant es) (hstep : esStep tr es = some es') :
    EsInvariant es' := by
  obtain ⟨hent, hlatch⟩ := h
  rcases esStep_cases hstep with ⟨ho, hl, -, rfl⟩ | ⟨ho, hl, w, -, rfl⟩ | ⟨ho, -, rfl⟩ | ⟨ho, w, -, rfl⟩ |
    ⟨ho, -, rfl⟩ | ⟨ho, -, rfl⟩ | ⟨ho, -, rfl⟩ | ⟨ho, -, rfl⟩ <;> constructor <;> simp_all

theorem esPhase_esInvariant {s : State} (h : EsInvariant s.es) : EsInvariant (esPhase s).es :=
  runEvents_induction s.params (fun _ _ _ => esStep_esInvariant) (fun _ d _ => pollEs_esInvariant d) _ _ h

theorem exec_esInvariant {i : Instr} {s t : State} (hexec : exec i s = .next t) (h : EsInvariant s.es) :
    EsInvariant t.es := by
  rcases exec_next_es hexec with ht | ht
  · rwa [ht]
  · rw [ht]; exact pollEs_esInvariant _ h

/-! The access bits: only a write of M mode to `mseccfg` changes them, and never a hardwired one. -/

/-- All that an instruction can do to the two bits is an access of M mode to `mseccfg`. -/
theorem exec_next_bits {i : Instr} {s t : State} (h : exec i s = .next t) :
    (t.sseed = s.sseed ∧ t.useed = s.useed) ∨
    (s.priv = .m ∧ t = completeMseccfg (opOf i) (rdOf i) (srcOf i) s) := by
  rcases exec_next_cases h with ⟨-, -, rfl⟩ | ⟨-, -, hp, ht⟩ | ⟨-, e, rfl, -⟩
  · exact .inl ⟨completePoll_sseed _ _, completePoll_useed _ _⟩
  · exact .inr ⟨hp, ht⟩
  · exact .inl ⟨enterTrap_sseed _ _ _, enterTrap_useed _ _ _⟩

/-- A bit that an instruction has set was set before, or is writable. -/
theorem exec_next_sseed {i : Instr} {s t : State} (h : exec i s = .next t) (ht : t.sseed = true) :
    s.sseed = true ∨ s.params.sseedWritable = true := by
  rcases exec_next_bits h with ⟨hs, -⟩ | ⟨-, rfl⟩
  · exact .inl (hs ▸ ht)
  · rw [completeMseccfg_sseed] at ht
    split at ht
    · exact .inr (Bool.and_eq_true_iff.1 ht).1
    · exact .inl ht

theorem exec_next_useed {i : Instr} {s t : State} (h : exec i s = .next t) (ht : t.useed = true) :
    s.useed = true ∨ s.params.useedWritable = true := by
  rcases exec_next_bits h with ⟨-, hu⟩ | ⟨-, rfl⟩
  · exact .inl (hu ▸ ht)
  · rw [completeMseccfg_useed] at ht
    split at ht
    · exact .inr (Bool.and_eq_true_iff.1 ht).1
    · exact .inl ht

theorem exec_next_params {i : Instr} {s t : State} (h : exec i s = .next t) : t.params = s.params := by
  rcases exec_next_completed_or_trap h with hc | ⟨-, e, rfl⟩
  · exact hc.params
  · exact enterTrap_params _ _ _

theorem exec_next_mem {i : Instr} {s t : State} (h : exec i s = .next t) : t.mem = s.mem := by
  rcases exec_next_completed_or_trap h with hc | ⟨-, e, rfl⟩
  · exact hc.mem
  · exact enterTrap_mem _ _ _

theorem exec_bitsRespectHardwiring {i : Instr} {s t : State} (hexec : exec i s = .next t)
    (h : BitsRespectHardwiring s) : BitsRespectHardwiring t := by
  refine ⟨fun ht => ?_, fun ht => ?_⟩ <;> rw [exec_next_params hexec]
  · exact (exec_next_sseed hexec ht).elim h.sseed id
  · exact (exec_next_useed hexec ht).elim h.useed id

/-! Mode, `pc`, registers, memory. -/

theorem exec_wellFormedMode {i : Instr} {s t : State} (hexec : exec i s = .next t) (h : WellFormedMode s) :
    WellFormedMode t := by
  rcases exec_next_completed_or_trap hexec with hc | ⟨-, e, rfl⟩
  · obtain ⟨hS, hU, hV⟩ := h
    constructor <;> simpa only [hc.params, hc.priv, hc.virt]
  · exact enterTrap_wellFormedMode _ _ h

theorem nextPc_aligned {s : State} (h : PcAligned s) : (nextPc s).toNat % 4 = 0 := by
  refine clip_aligned _ _ ?_
  rw [PcAligned] at h
  bv_omega

theorem exec_pcAligned {i : Instr} {s t : State} (hexec : exec i s = .next t) (h : PcAligned s) : PcAligned t := by
  rw [PcAligned]
  rcases exec_next_completed_or_trap hexec with hc | ⟨-, e, rfl⟩
  · rw [hc.pc]; exact nextPc_aligned h
  · obtain ⟨tvec, hpc⟩ := enterTrap_pc e (encode i) s
    rw [hpc]; exact tvecBase_aligned _ _

theorem Completed.wordsFit {rd : Reg} {s t : State} (hc : Completed rd s t) (h : WordsFit s) : WordsFit t where
  regs r := by
    obtain ⟨v, hv, hreg⟩ := hc.register
    rw [hreg r, hc.params]
    split
    · rw [← hv]; exact clip_lt _ _
    · exact h.regs r
  pc := by rw [hc.pc, hc.params]; exact clip_lt _ _

theorem exec_wordsFit {i : Instr} {s t : State} (hexec : exec i s = .next t) (h : WordsFit s) : WordsFit t := by
  rcases exec_next_completed_or_trap hexec with hc | ⟨-, e, rfl⟩
  · exact hc.wordsFit h
  · refine ⟨fun r => by simpa using h.regs r, ?_⟩
    obtain ⟨tvec, hpc⟩ := enterTrap_pc e (encode i) s
    rw [hpc, enterTrap_params]; exact clip_lt _ _

theorem exec_memoryFits {i : Instr} {s t : State} (hexec : exec i s = .next t) (h : MemoryFits s) : MemoryFits t := by
  have hm := exec_next_mem hexec
  have hp := exec_next_params hexec
  exact ⟨by rw [hm]; exact h.canonical, by rw [hm, hp]; exact h.inSpace⟩

/-! All premises together. -/

theorem exec_premises {i : Instr} {s t : State} (hexec : exec i s = .next t) (h : Premises s) : Premises t where
  mode := exec_wellFormedMode hexec h.mode
  bits := exec_bitsRespectHardwiring hexec h.bits
  source := exec_esInvariant hexec h.source
  aligned := exec_pcAligned hexec h.aligned
  words := exec_wordsFit hexec h.words
  memory := exec_memoryFits hexec h.memory

/-- A turn of the source is seen by the premise about the source alone. -/
theorem esPhase_premises {s : State} (h : Premises s) : Premises (esPhase s) where
  mode := ⟨h.mode.supervisor, h.mode.user, h.mode.virtual⟩
  bits := ⟨h.bits.sseed, h.bits.useed⟩
  source := esPhase_esInvariant h.source
  aligned := h.aligned
  words := ⟨h.words.regs, h.words.pc⟩
  memory := ⟨h.memory.canonical, h.memory.inSpace⟩

/-- Settles O45: a step is a turn of the source, an instruction and a turn again, and each keeps every premise. -/
theorem everyStepKeepsThePremises : Obligations.EveryStepKeepsThePremises := by
  intro s t h hstep
  obtain ⟨-, i, -, u, -, -, hexec, rfl⟩ := step_next hstep
  exact esPhase_premises (exec_premises hexec (esPhase_premises h))

/-! Reset (10_state.md R39). -/

theorem params_wf_iff (p : Params) : p.wf = true ↔
    (p.hasH = true → p.hasS = true ∧ p.hasU = true) ∧ p.mseccfgAddr < 4096 ∧ p.mseccfgAddr ≠ seedAddr ∧
      (p.resetVector.toNat < 2 ^ p.xlen.bits ∧ p.resetVector.toNat % 4 = 0) ∧
      (p.programBase.toNat < 2 ^ p.xlen.bits ∧ p.programBase.toNat % 4 = 0) := by
  cases hH : p.hasH <;> simp [Params.wf, hH, and_assoc]

theorem esInvariant_reset : EsInvariant Es.reset := ⟨fun _ => rfl, nofun⟩

/-- Settles O46: the record asks for an aligned `XLEN`-bit reset vector, and the rest is zero, empty or M mode. -/
theorem resetHasThePremises : Obligations.ResetHasThePremises := by
  intro p hp
  obtain ⟨-, -, -, ⟨hfits, haligned⟩, -⟩ := (params_wf_iff p).1 hp
  exact
    { mode := ⟨nofun, nofun, nofun⟩
      bits := ⟨fun h => (Bool.and_eq_true_iff.1 h).1, fun h => (Bool.and_eq_true_iff.1 h).1⟩
      source := esInvariant_reset
      aligned := haligned
      words := ⟨fun r => by simp, hfits⟩
      memory := ⟨resetFor_mem_wf p, nofun⟩ }

/-- Settles O47: the access bits at reset are the reset bits asked for, where writable. -/
theorem resetState : Obligations.ResetState := by
  intro p
  refine ⟨rfl, fun h => ?_, fun h => ?_, fun h => ?_, fun h => ?_, rfl, rfl, rfl, rfl⟩
  · rw [resetFor_sseed, Params.sseedReset, h, Bool.true_and]
  · rw [resetFor_sseed, Params.sseedReset, h, Bool.false_and]
  · rw [resetFor_useed, Params.useedReset, h, Bool.true_and]
  · rw [resetFor_useed, Params.useedReset, h, Bool.false_and]

end Sys2Proof.Machine

/-! Runs of any length (41_seed_polling.md R117; 10_state.md R35, R36). -/

namespace Sys2Proof.Machine

open Sys2Proof.Safety

/-- Where a run of one step more comes from, for every machine of the host's interface. -/
theorem run_succ_next {M : Host.Core} {n : Nat} {s t : M.State} (hrun : M.run (n + 1) s = .next t) :
    ∃ u, M.step s = .next u ∧ M.run n u = .next t := by
  simp only [Host.Core.run] at hrun
  split at hrun
  · rename_i u hu; exact ⟨u, hu, hrun⟩
  · cases hrun
  · cases hrun

/-- What every step keeps, every run keeps. -/
theorem run_induction {P : State → Prop} (hstep : ∀ s t, P s → step s = .next t → P t) (n : Nat) {s t : State}
    (hs : P s) (hrun : Host.Core.run Sys2Proof.core n s = .next t) : P t := by
  induction n generalizing s with
  | zero => cases hrun; exact hs
  | succ n ih =>
    obtain ⟨u, hu, hrest⟩ := run_succ_next hrun
    exact ih (hstep s u hs hu) hrest

/-! `DEAD`. -/

theorem step_dead {s t : State} (h : s.es.opst = .dead) (hstep : step s = .next t) : t.es.opst = .dead := by
  rw [← stateAfter_of_next hstep]; exact stateAfter_dead (esPhase_dead h)

/-- Settles O43: a step keeps `DEAD`, and the word polled there has its status and no entropy. -/
theorem deadIsAbsorbing : Obligations.DeadIsAbsorbing := by
  intro n s t hs hrun
  have ht : t.es.opst = .dead := run_induction (P := fun s => s.es.opst = .dead) (fun _ _ => step_dead) n hs hrun
  refine ⟨ht, by rw [seedPoll_word, statusOfWord_seedWord, ht], ?_⟩
  rw [seedPoll_word, seedWord_of_ne_es16 _ (by simp [ht])]
  exact extract_entropy _ _ _ _

/-! Hardwired access bits. -/

/-- From `s` to `t` every read-only access bit that was zero has stayed zero. -/
structure KeepsHardwiredZeros (s t : State) : Prop where
  params : t.params = s.params
  sseed : s.params.sseedWritable = false → s.sseed = false → t.sseed = false
  useed : s.params.useedWritable = false → s.useed = false → t.useed = false

theorem KeepsHardwiredZeros.trans {s t u : State} (h : KeepsHardwiredZeros s t) (h' : KeepsHardwiredZeros t u) :
    KeepsHardwiredZeros s u :=
  ⟨h'.params.trans h.params, fun hw hs => h'.sseed (h.params ▸ hw) (h.sseed hw hs),
    fun hw hu => h'.useed (h.params ▸ hw) (h.useed hw hu)⟩

theorem exec_keepsHardwiredZeros {i : Instr} {s t : State} (hexec : exec i s = .next t) : KeepsHardwiredZeros s t where
  params := exec_next_params hexec
  sseed hw hs := by
    rw [← Bool.not_eq_true]
    exact fun ht => by simpa [hw, hs] using exec_next_sseed hexec ht
  useed hw hu := by
    rw [← Bool.not_eq_true]
    exact fun ht => by simpa [hw, hu] using exec_next_useed hexec ht

theorem step_keepsHardwiredZeros {s t : State} (hstep : step s = .next t) : KeepsHardwiredZeros s t := by
  obtain ⟨-, i, -, u, -, -, hexec, rfl⟩ := step_next hstep
  obtain ⟨hparams, hs, hu⟩ := exec_keepsHardwiredZeros hexec
  exact ⟨hparams, hs, hu⟩

theorem run_keepsHardwiredZeros {n : Nat} {s t : State} (hrun : Host.Core.run Sys2Proof.core n s = .next t) :
    KeepsHardwiredZeros s t :=
  run_induction (P := KeepsHardwiredZeros s) (fun _ _ h hstep => h.trans (step_keepsHardwiredZeros hstep)) n
    ⟨rfl, fun _ hs => hs, fun _ hu => hu⟩ hrun

/-- Each of the three causes hardwires `sseed` (R35, R36). -/
theorem sseedWritable_eq_false_iff (p : Params) :
    p.sseedWritable = false ↔ p.hasS = false ∨ p.zkr = false ∨ p.sseedImplemented = false := by
  simp only [Params.sseedWritable, Bool.and_eq_false_iff]
  tauto

theorem useedWritable_eq_false_iff (p : Params) :
    p.useedWritable = false ↔ p.hasU = false ∨ p.zkr = false ∨ p.useedImplemented = false := by
  simp only [Params.useedWritable, Bool.and_eq_false_iff]
  tauto

/-- Settles O28: every cause makes the bit read-only, a read-only bit is kept, and reset gives zero there. -/
theorem hardwiredBitsStayZero : Obligations.HardwiredBitsStayZero := by
  intro n s t hrun
  have h := run_keepsHardwiredZeros hrun
  have hs := fun hc => h.sseed ((sseedWritable_eq_false_iff s.params).2 hc)
  have hu := fun hc => h.useed ((useedWritable_eq_false_iff s.params).2 hc)
  refine ⟨h.sseed, h.useed, fun hS => hs (.inl hS), fun hU => hu (.inl hU),
    fun hz hs0 hu0 => ⟨hs (.inr (.inl hz)) hs0, hu (.inr (.inl hz)) hu0⟩, fun hi => hs (.inr (.inr hi)),
    fun hi => hu (.inr (.inr hi)), fun p => ⟨fun hc => ?_, fun hc => ?_⟩⟩
  · rw [resetFor_sseed, Params.sseedReset, (sseedWritable_eq_false_iff p).2 hc, Bool.false_and]
  · rw [resetFor_useed, Params.useedReset, (useedWritable_eq_false_iff p).2 hc, Bool.false_and]

end Sys2Proof.Machine

/-! Polls and the words they return; who learns from the source and who disturbs it (41_seed_polling.md R111, R112,
R124; 43_access_control.md R160, R167, R170). -/

namespace Sys2Proof.Machine

open Sys2Proof.Safety

/-! The word as software reads it. -/

theorem entropyOfWord_seedWord (es : Es) (d : PollDraw) :
    entropyOfWord (seedWord es d) = if es.opst = .es16 then some es.entropy else none := by
  rw [entropyOfWord, statusOfWord_seedWord]
  by_cases ho : es.opst = .es16
  · rw [if_pos ((isSuccess_iff _).2 ho), if_pos ho, seedWord_of_es16 d ho]
    exact congrArg some (extract_entropy .es16 d.rsvd d.custom es.entropy)
  · rw [if_neg (mt (isSuccess_iff _).1 ho), if_neg ho]

/-- Settles O15: status and entropy are read back from the fields that `seedWord` put together. -/
theorem softwareDecodesReturnedWords : Obligations.SoftwareDecodesReturnedWords :=
  ⟨fun s => ⟨statusOfWord_seedWord s.es _, entropyOfWord_seedWord s.es _⟩, ⟨rfl, rfl⟩, ⟨rfl, rfl⟩⟩

/-- Outside `ES16` a legal word has no bit of entropy. -/
theorem entropy_eq_zero_of_form {w : BitVec 32} (h : SeedWordForm w) (hs : statusOfWord w ≠ .es16) :
    w.extractLsb' 0 16 = 0x0000#16 := by
  obtain ⟨o, r, c, e, rfl, he⟩ := h
  rw [statusOfWord_fields] at hs
  exact (extract_entropy o r c e).trans (he hs)

/-- Settles O16: the word is packed from its status's form; all ones has the status `DEAD` and entropy bits. -/
theorem returnedWordsHaveFourForms : Obligations.ReturnedWordsHaveFourForms :=
  ⟨fun _ => seedWord_form _ _, fun h => absurd (entropy_eq_zero_of_form h (by decide)) (by decide)⟩

/-! Permitted polls. -/

/-- Settles O9: each form is read-write, so its access is the permitted poll. -/
theorem permittedPollsComplete : Obligations.PermittedPollsComplete := by
  intro s rd rs1 uimm hm
  have poll (i : Instr) (hc : csrOf i = seedAddr) (hw : isReadWrite i = true) :
      ∃ t, exec i s = .next t ∧ PollResult (rdOf i) s t :=
    ⟨_, exec_permitted_poll hc hw hm, completePoll_pollResult _ _⟩
  exact ⟨poll (.csrrw rd 0x015 rs1) rfl rfl, fun h => poll (.csrrs rd 0x015 rs1) rfl (decide_eq_true h),
    fun h => poll (.csrrc rd 0x015 rs1) rfl (decide_eq_true h), poll (.csrrwi rd 0x015 uimm) rfl rfl,
    fun h => poll (.csrrsi rd 0x015 uimm) rfl (decide_eq_true h),
    fun h => poll (.csrrci rd 0x015 uimm) rfl (decide_eq_true h)⟩

/-- Settles O10: without `Zkr` no mode may poll, and the access check does not answer `virtual`. -/
theorem seedWithoutZkrIsIllegal : Obligations.SeedWithoutZkrIsIllegal := by
  intro i s hc hzkr
  rw [exec_seed i s hc, seedCheck, hzkr]
  rfl

/-- Settles O19: of the three ways to a next state only the poll reaches the source or uses draws. -/
theorem onlyPermittedPollsTouchTheSource : Obligations.OnlyPermittedPollsTouchTheSource := by
  intro i s t hexec hchanged
  rcases exec_next_cases hexec with ⟨hc, hk, -⟩ | ⟨-, -, -, rfl⟩ | ⟨-, e, rfl, -⟩
  · obtain ⟨hzkr, hw, hvirt, hmode⟩ := (seedCheck_ok_iff _ _).1 hk
    exact ⟨hc, hw, hzkr, hvirt, hmode⟩
  · simp at hchanged
  · simp at hchanged

/-! The delivered word after the poll. -/

/-- What a poll in `ES16` leaves of the source is drawn afresh. -/
theorem pollEs_congr_entropy {es : Es} (d : PollDraw) (e : BitVec 16) (h : es.opst = .es16) :
    pollEs { es with entropy := e } d = pollEs es d := by
  cases hd : d.toWait with
  | true => rw [pollEs_wipe_to_wait h hd, pollEs_wipe_to_wait (es := { es with entropy := e }) h hd]
  | false => rw [pollEs_wipe_to_fresh h hd, pollEs_wipe_to_fresh (es := { es with entropy := e }) h hd]

/-- Settles O17: the poll's destination is the one field of the state after it that the word is written to. -/
theorem deliveredWordIsNotKept : Obligations.DeliveredWordIsNotKept := by
  intro i s e hc hw hm ho
  have hm' : MayPoll { s with es := { s.es with entropy := e } } := hm
  refine ⟨_, _, exec_permitted_poll hc hw hm, exec_permitted_poll hc hw hm', ?_⟩
  simp only [completePoll_es, completePoll_env, completePoll_params, completePoll_pc, completePoll_priv,
    completePoll_virt, completePoll_sseed, completePoll_useed, completePoll_trap, completePoll_mem, nextPc, true_and]
  refine ⟨pollEs_congr_entropy _ e ho, fun r hr => ?_⟩
  rw [readReg_completePoll, readReg_completePoll, if_neg (fun h => hr h.1), if_neg (fun h => hr h.1)]
  rfl

/-! Guests: another source in the state is another source after it, where the instruction does not poll. -/

/-- `s` with another entropy source in it. -/
def withEs (es : Es) (s : State) : State := { s with es := es }

section
variable (es : Es) (s : State)

theorem enterTrap_withEs (e : Exception) (w : BitVec 32) :
    enterTrap e w (withEs es s) = withEs es (enterTrap e w s) := by
  have hl : trapLevel e (withEs es s) = trapLevel e s := rfl
  cases h : trapLevel e s with
  | m => rw [enterTrap_of_m w h, enterTrap_of_m w (hl.trans h)]; rfl
  | s => rw [enterTrap_of_s w h, enterTrap_of_s w (hl.trans h)]; rfl
  | vs => rw [enterTrap_of_vs w h, enterTrap_of_vs w (hl.trans h)]; rfl

theorem takeException_withEs (e : Exception) (w : BitVec 32) :
    takeException e w (withEs es s) = mapNext (withEs es) (takeException e w s) := by
  have hp : (withEs es s).params = s.params := rfl
  cases hm : s.params.trapMode with
  | terminal => simp only [takeException, hp, hm, mapNext]; rfl
  | privileged => simp only [takeException, hp, hm, mapNext, enterTrap_withEs]

theorem writeReg_withEs (r : Reg) (v : Word) : writeReg r v (withEs es s) = withEs es (writeReg r v s) := by
  unfold writeReg; split <;> rfl

theorem srcValue_withEs (src : CsrSrc) : srcValue (withEs es s) src = srcValue s src := by
  cases src <;> rfl

theorem completeMseccfg_withEs (op : CsrOp) (rd : Reg) (src : CsrSrc) :
    completeMseccfg op rd src (withEs es s) = withEs es (completeMseccfg op rd src s) := by
  have hread : mseccfgRead (withEs es s) = mseccfgRead s := rfl
  have hwrite (v : Word) : mseccfgWrite v (withEs es s) = withEs es (mseccfgWrite v s) := rfl
  have hpc (u : State) : advancePc (withEs es u) = withEs es (advancePc u) := rfl
  unfold completeMseccfg
  split <;> simp only [hread, srcValue_withEs, hwrite, writeReg_withEs, hpc]

end

/-- In a virtual mode no access to `seed` is permitted. -/
theorem seedCheck_ne_ok_of_virt {s : State} (w : Bool) (hv : s.virt = true) : seedCheck s w ≠ .ok := by
  rw [ne_eq, seedCheck_ok_iff]; simp [hv]

theorem exec_withEs_of_virt (i : Instr) {s : State} (es : Es) (hv : s.virt = true) :
    exec i (withEs es s) = mapNext (withEs es) (exec i s) := by
  by_cases hc : csrOf i = seedAddr
  · have hcheck : seedCheck (withEs es s) (isReadWrite i) = seedCheck s (isReadWrite i) := rfl
    rw [exec_seed i s hc, exec_seed i _ hc, hcheck]
    cases hk : seedCheck s (isReadWrite i) with
    | ok => exact absurd hk (seedCheck_ne_ok_of_virt _ hv)
    | illegal => exact takeException_withEs es s _ _
    | virtual => exact takeException_withEs es s _ _
  · have hp : (withEs es s).params = s.params := rfl
    have hpriv : (withEs es s).priv = s.priv := rfl
    simp only [exec_eq_execCSR, execCSR, if_neg hc, hp, hpriv]
    split_ifs
    · exact congrArg Host.Outcome.next (completeMseccfg_withEs es s _ _ _)
    · exact takeException_withEs es s _ _
    · rfl

/-- Settles O18: the source is not read (`exec_withEs_of_virt`), and only a permitted poll would touch it. -/
theorem guestNeverReachesTheSource : Obligations.GuestNeverReachesTheSource := by
  refine fun i s es hv => ⟨exec_withEs_of_virt i es hv, fun t hexec => ?_⟩
  by_contra hchanged
  obtain ⟨-, -, -, hv', -⟩ := onlyPermittedPollsTouchTheSource i s t hexec (not_and_or.1 hchanged)
  rw [hv] at hv'
  cases hv'

end Sys2Proof.Machine

/-! Accesses to `mseccfg`, instruction by instruction, and who may change the two bits (40_csr_instructions.md R91 to
R96; 43_access_control.md R164 to R166). -/

namespace Sys2Proof.Machine

open Sys2Proof.Safety

/-! The two bits after an access, operation by operation. -/

section
variable (rd : Reg) (src : CsrSrc) (s : State)

theorem mseccfgRead_bit9 : (mseccfgRead s).getLsbD 9 = s.sseed := by
  rw [mseccfgRead_bit]; simp

theorem mseccfgRead_bit8 : (mseccfgRead s).getLsbD 8 = s.useed := by
  rw [mseccfgRead_bit]; simp

theorem completeMseccfg_replace :
    (completeMseccfg .replace rd src s).sseed = (s.params.sseedWritable && (srcValue s src).getLsbD 9) ∧
    (completeMseccfg .replace rd src s).useed = (s.params.useedWritable && (srcValue s src).getLsbD 8) := by
  rw [completeMseccfg_sseed, completeMseccfg_useed]
  exact ⟨rfl, rfl⟩

theorem completeMseccfg_setBits :
    (completeMseccfg .setBits rd src s).sseed =
      (if fieldNonzero src then s.params.sseedWritable && (s.sseed || (srcValue s src).getLsbD 9) else s.sseed) ∧
    (completeMseccfg .setBits rd src s).useed =
      (if fieldNonzero src then s.params.useedWritable && (s.useed || (srcValue s src).getLsbD 8) else s.useed) := by
  rw [completeMseccfg_sseed, completeMseccfg_useed, newValue, BitVec.getLsbD_or, BitVec.getLsbD_or, mseccfgRead_bit9,
    mseccfgRead_bit8]
  exact ⟨rfl, rfl⟩

theorem completeMseccfg_clearBits :
    (completeMseccfg .clearBits rd src s).sseed =
      (if fieldNonzero src then s.params.sseedWritable && (s.sseed && !(srcValue s src).getLsbD 9) else s.sseed) ∧
    (completeMseccfg .clearBits rd src s).useed =
      (if fieldNonzero src then s.params.useedWritable && (s.useed && !(srcValue s src).getLsbD 8) else s.useed) := by
  rw [completeMseccfg_sseed, completeMseccfg_useed, newValue, BitVec.getLsbD_and, BitVec.getLsbD_and,
    BitVec.getLsbD_not, BitVec.getLsbD_not, mseccfgRead_bit9, mseccfgRead_bit8]
  exact ⟨rfl, rfl⟩

end

/-- A 5-bit immediate reaches no bit above 4 (30_encoding.md R72). -/
theorem zextImm_bit {uimm k : Nat} (h : uimm < 32) (hk : 5 ≤ k) : (zextImm uimm).getLsbD k = false := by
  have hlt : uimm < 2 ^ k := h.trans_le (Nat.pow_le_pow_right (n := 2) (by decide) hk)
  rw [zextImm, BitVec.getLsbD_ofNat, Nat.testBit_lt_two_pow hlt, Bool.and_false]

/-! An immediate has neither bit, so it clears both or leaves the writable ones as they are. -/

section
variable (rd : Reg) {uimm : Nat} (s : State) (hu : uimm < 32)
include hu

theorem completeMseccfg_replace_imm :
    (completeMseccfg .replace rd (.imm uimm) s).sseed = false ∧
    (completeMseccfg .replace rd (.imm uimm) s).useed = false := by
  simpa only [srcValue, zextImm_bit hu, Nat.reduceLeDiff, Bool.and_false] using
    completeMseccfg_replace rd (.imm uimm) s

theorem completeMseccfg_setBits_imm :
    (completeMseccfg .setBits rd (.imm uimm) s).sseed =
      (if uimm = 0 then s.sseed else s.params.sseedWritable && s.sseed) ∧
    (completeMseccfg .setBits rd (.imm uimm) s).useed =
      (if uimm = 0 then s.useed else s.params.useedWritable && s.useed) := by
  simpa only [fieldNonzero, srcValue, zextImm_bit hu, Nat.reduceLeDiff, Bool.or_false, decide_eq_true_eq, ne_eq,
    ite_not] using completeMseccfg_setBits rd (.imm uimm) s

theorem completeMseccfg_clearBits_imm :
    (completeMseccfg .clearBits rd (.imm uimm) s).sseed =
      (if uimm = 0 then s.sseed else s.params.sseedWritable && s.sseed) ∧
    (completeMseccfg .clearBits rd (.imm uimm) s).useed =
      (if uimm = 0 then s.useed else s.params.useedWritable && s.useed) := by
  simpa only [fieldNonzero, srcValue, zextImm_bit hu, Nat.reduceLeDiff, Bool.not_false, Bool.and_true,
    decide_eq_true_eq, ne_eq, ite_not] using completeMseccfg_clearBits rd (.imm uimm) s

end

/-- The access completes, with the bits that its operation leaves. -/
theorem exec_mseccfg_bits {i : Instr} {s : State} {sseed useed : Bool} (hp : s.priv = .m)
    (hc : csrOf i = s.params.mseccfgAddr) (hne : s.params.mseccfgAddr ≠ seedAddr)
    (h : (completeMseccfg (opOf i) (rdOf i) (srcOf i) s).sseed = sseed ∧
      (completeMseccfg (opOf i) (rdOf i) (srcOf i) s).useed = useed) :
    ∃ t, exec i s = .next t ∧ MseccfgResult (rdOf i) sseed useed s t := by
  obtain ⟨hs, hu⟩ := h
  exact ⟨_, exec_mseccfg hp hc hne, hs ▸ hu ▸ completeMseccfg_mseccfgResult _ _ _ _⟩

/-- Settles O22: the bits are those of the replace operation. -/
theorem csrReplaceOnMseccfg : Obligations.CsrReplaceOnMseccfg :=
  fun s rd rs1 _ hp hne hu =>
    ⟨exec_mseccfg_bits hp rfl hne (completeMseccfg_replace rd (.reg rs1) s),
      exec_mseccfg_bits hp rfl hne (completeMseccfg_replace_imm rd s hu)⟩

/-- Settles O23: the bits are those of the set operation. -/
theorem csrSetBitsOnMseccfg : Obligations.CsrSetBitsOnMseccfg := by
  intro s rd rs1 uimm hp hne hu
  have hreg := completeMseccfg_setBits rd (.reg rs1) s
  simp only [fieldNonzero, srcValue, decide_eq_true_eq, ne_eq, ite_not] at hreg
  exact ⟨exec_mseccfg_bits hp rfl hne hreg, exec_mseccfg_bits hp rfl hne (completeMseccfg_setBits_imm rd s hu)⟩

/-- Settles O24: the bits are those of the clear operation. -/
theorem csrClearBitsOnMseccfg : Obligations.CsrClearBitsOnMseccfg := by
  intro s rd rs1 uimm hp hne hu
  have hreg := completeMseccfg_clearBits rd (.reg rs1) s
  simp only [fieldNonzero, srcValue, decide_eq_true_eq, ne_eq, ite_not] at hreg
  exact ⟨exec_mseccfg_bits hp rfl hne hreg, exec_mseccfg_bits hp rfl hne (completeMseccfg_clearBits_imm rd s hu)⟩

/-- Settles O25: the set form leaves each bit as its writability, and the read-only form reads them. -/
theorem discoveryOfWritableBits : Obligations.DiscoveryOfWritableBits := by
  intro s rd rt hp hne hrd hrt h9 h8
  obtain ⟨⟨t, hset, ht⟩, -⟩ := csrSetBitsOnMseccfg s 0 rt 0 hp hne (by decide)
  have hparams : t.params = s.params := ht.context.params
  obtain ⟨u, hread, hu⟩ := exec_mseccfg_readOnly (i := .csrrs rd t.params.mseccfgAddr 0) (s := t)
    (ht.context.priv.trans hp) rfl (hparams ▸ hne) rfl
  have hword : readReg u rd = mseccfgRead t := by rw [hu.register rd]; exact if_pos ⟨rfl, hrd⟩
  refine ⟨t, u, hset, hread, ?_, ?_⟩
  · rw [hword, mseccfgRead_bit9, ht.sseed, if_neg hrt, h9, Bool.or_true, Bool.and_true]
  · rw [hword, mseccfgRead_bit8, ht.useed, if_neg hrt, h8, Bool.or_true, Bool.and_true]

/-! Who may change them. -/

/-- Settles O26: `execCSR` has one arm for `mseccfg` outside M mode. -/
theorem mseccfgOutsideMachineModeIsIllegal : Obligations.MseccfgOutsideMachineModeIsIllegal := by
  intro i s hc hne hp
  rw [exec_eq_execCSR, execCSR, if_neg (hc ▸ hne), if_pos hc, if_neg hp]

/-- Settles O11: neither CSR's arm of `execCSR` is taken. -/
theorem otherCsrNumbersAreRefused : Obligations.OtherCsrNumbersAreRefused := by
  intro i s hseed hmseccfg
  rw [exec_eq_execCSR, execCSR, if_neg (show csrOf i ≠ seedAddr from hseed), if_neg hmseccfg]

/-- Settles O27: the one way to other bits is an access of M mode. -/
theorem onlyMachineModeChangesTheAccessBits : Obligations.OnlyMachineModeChangesTheAccessBits := by
  intro i s t hexec hp
  rcases exec_next_bits hexec with h | ⟨hm, -⟩
  · exact h
  · exact absurd hm hp

/-- Settles O38: a set or clear form writes the writable bits back, which are all that are set, and a replace form
writes zeros. -/
theorem immediatesCannotSetTheAccessBits : Obligations.ImmediatesCannotSetTheAccessBits := by
  intro rd csr uimm s t hu ⟨hs, hv⟩
  have hs' : (s.params.sseedWritable && s.sseed) = s.sseed := by cases h : s.sseed <;> simp [h, hs]
  have hv' : (s.params.useedWritable && s.useed) = s.useed := by cases h : s.useed <;> simp [h, hv]
  refine ⟨fun hexec => ?_, fun hexec => ?_, fun hexec => ?_⟩ <;>
    rcases exec_next_bits hexec with ⟨hts, htu⟩ | ⟨-, rfl⟩
  · exact ⟨hts, htu⟩
  · have h := completeMseccfg_setBits_imm rd s hu
    simp only [hs', hv', ite_self] at h
    exact h
  · exact ⟨hts, htu⟩
  · have h := completeMseccfg_clearBits_imm rd s hu
    simp only [hs', hv', ite_self] at h
    exact h
  · exact ⟨fun h => hts ▸ h, fun h => htu ▸ h⟩
  · obtain ⟨hzs, hzu⟩ := completeMseccfg_replace_imm rd s hu
    exact ⟨fun h => absurd (hzs.symm.trans h) (by decide), fun h => absurd (hzu.symm.trans h) (by decide)⟩

end Sys2Proof.Machine

/-! When illegal instruction is raised, and what a trap entry saves and a return restores (60_exceptions.md R180, R183
to R186). -/

namespace Sys2Proof.Machine

open Sys2Proof.Safety

/-! Illegal instruction in the hardware alone. -/

theorem seedCheck_illegal_iff (s : State) (w : Bool) :
    seedCheck s w = .illegal ↔ w = false ∨ s.params.zkr = false ∨ (s.virt = true ∧ s.sseed = false) ∨
      (s.virt = false ∧ (s.priv = .s ∧ s.sseed = false ∨ s.priv = .u ∧ s.useed = false)) := by
  unfold seedCheck seedAccess
  cases s.params.zkr <;> cases w <;> cases s.virt <;> cases s.priv <;> cases s.sseed <;> cases s.useed <;> simp

/-- The two sources of the exception: the access check of `seed` and an access to `mseccfg` outside M mode. -/
theorem exec_illegalInstruction_iff (i : Instr) {s : State} (hm : s.params.trapMode = .terminal)
    (hne : s.params.mseccfgAddr ≠ seedAddr) :
    exec i s = .fault (.trapped .illegalInstruction s.pc (encode i) s.priv s.virt) ↔
      (csrOf i = seedAddr ∧ seedCheck s (isReadWrite i) = .illegal) ∨
        (csrOf i = s.params.mseccfgAddr ∧ s.priv ≠ .m) := by
  constructor
  · intro h
    rcases exec_trapped_cases h with ⟨hc, hk, -⟩ | ⟨-, -, he⟩ | ⟨hc, hp, -⟩
    · exact .inl ⟨hc, hk⟩
    · cases he
    · exact .inr ⟨hc, hp⟩
  · rintro (⟨hc, hk⟩ | ⟨hc, hp⟩)
    · rw [exec_seed i s hc, hk]; exact takeException_terminal _ _ hm
    · rw [mseccfgOutsideMachineModeIsIllegal i s hc hne hp, takeException_terminal _ _ hm]

/-- Settles O29: the cases (a) to (d) and (f) are the answer `illegal` of the access check, (e) is the access to
`mseccfg`. -/
theorem illegalInstructionExactlyWhen : Obligations.IllegalInstructionExactlyWhen := by
  intro i s _ hm hne
  rw [exec_illegalInstruction_iff i hm hne, seedCheck_illegal_iff, seedAddr]
  have hform := Bool.eq_false_or_eq_true (isReadWrite i)
  tauto

/-! Who takes a trap, and what that level saves. -/

theorem takeException_privileged (e : Exception) (w : BitVec 32) {s : State} (hm : s.params.trapMode = .privileged) :
    takeException e w s = .next (enterTrap e w s) := by
  simp only [takeException, hm]

/-- Settles O31: the two trap modes are the two arms of `takeException`. -/
theorem raisedExceptionOutcome : Obligations.RaisedExceptionOutcome :=
  fun e w _ => ⟨takeException_terminal e w, takeException_privileged e w⟩

theorem takeException_next {e : Exception} {w : BitVec 32} {s t : State} (h : takeException e w s = .next t) :
    t = enterTrap e w s := by
  rcases takeException_cases e w s with ⟨-, ht⟩ | ⟨-, ht⟩ <;> rw [ht] at h <;> cases h
  rfl

theorem trapLevel_delegated {e : Exception} {s : State} (hp : s.priv ≠ .m) (hS : s.params.hasS = true)
    (hd : s.trap.medeleg.getLsbD (causeCode s.params e) = true) :
    trapLevel e s =
      if s.virt = true ∧ e = .illegalInstruction ∧ s.trap.hedeleg.getLsbD (causeCode s.params e) = true then .vs
      else .s := by
  rw [trapLevel, if_neg (by simp [hp, hS, hd])]

/-- Settles O32: where nothing delegates, `trapLevel` is M, and the fields are those of `enterTrap_of_m`. -/
theorem trapEntryIntoMachineMode : Obligations.TrapEntryIntoMachineMode := by
  intro e w s t _ hexec hcause
  have hl : trapLevel e s = .m := if_pos hcause
  obtain rfl := takeException_next hexec
  rw [enterTrap_of_m w hl]
  simp [saveTrap, trapValue, tvecBase]

/-- Settles O33: the condition of the two clauses is the one on which `trapLevel` passes a trap on to VS. -/
theorem delegatedTrapEntry : Obligations.DelegatedTrapEntry := by
  intro e w s t _ hexec hp hS hd
  obtain rfl := takeException_next hexec
  have hl := trapLevel_delegated hp hS hd
  by_cases hvs : s.virt = true ∧ e = .illegalInstruction ∧ s.trap.hedeleg.getLsbD (causeCode s.params e) = true
  · rw [if_pos hvs] at hl
    rw [enterTrap_of_vs w hl]
    exact ⟨rfl, rfl, rfl, rfl, rfl, fun _ => ⟨hvs.1, rfl, rfl, rfl, rfl, rfl, rfl, rfl, rfl, rfl, rfl⟩,
      fun h => absurd hvs h⟩
  · rw [if_neg hvs] at hl
    rw [enterTrap_of_s w hl]
    exact ⟨rfl, rfl, rfl, rfl, rfl, fun h => absurd h hvs,
      fun _ => ⟨rfl, rfl, rfl, rfl, rfl, rfl, rfl, rfl, rfl, rfl, rfl⟩⟩

/-- Settles O34: the next state is the trap entry, which keeps these fields and saves `pc` at the level it is taken. -/
theorem exceptionLeavesTheHardwareAsItWas : Obligations.ExceptionLeavesTheHardwareAsItWas := by
  intro i s e hm hexec
  rw [takeException_privileged e _ hm] at hexec
  refine ⟨_, hexec, enterTrap_es _ _ _, enterTrap_env _ _ _, enterTrap_sseed _ _ _, enterTrap_useed _ _ _,
    enterTrap_params _ _ _, readReg_enterTrap _ _ _, fun a => by rw [enterTrap_mem], fun hl => ?_, fun hl => ?_,
    fun hl => ?_⟩
  · rw [enterTrap_of_m _ hl]; rfl
  · rw [enterTrap_of_s _ hl]; rfl
  · rw [enterTrap_of_vs _ hl]; rfl

/-- Settles O35: at each level the return reads the fields that the entry saved; only VS leaves `V` alone, both ways. -/
theorem trapReturnUndoesTrapEntry : Obligations.TrapReturnUndoesTrapEntry := by
  intro e w s
  cases hl : trapLevel e s with
  | m => rw [enterTrap_of_m w hl]; exact ⟨rfl, rfl, rfl, rfl, rfl, rfl⟩
  | s => rw [enterTrap_of_s w hl]; exact ⟨rfl, rfl, rfl, rfl, rfl, rfl⟩
  | vs => rw [enterTrap_of_vs w hl]; exact ⟨rfl, rfl, rfl, rfl, rfl, rfl⟩

end Sys2Proof.Machine

/-! The entropy source's own transitions, its turns, and the alarm latch (41_seed_polling.md R118, R119;
60_exceptions.md R191). -/

namespace Sys2Proof.Machine

open Sys2Proof.Safety

/-- Settles O40: one way is `esStep_cases`, the other an arm of `esStep` for each row. -/
theorem esStepAdmitsExactlyTheTable : Obligations.EsStepAdmitsExactlyTheTable := by
  refine fun tr es es' => ⟨esStep_cases, ?_⟩
  rintro (⟨ho, hl, rfl, rfl⟩ | ⟨ho, hl, w, rfl, rfl⟩ | ⟨ho, rfl, rfl⟩ | ⟨ho, w, rfl, rfl⟩ | ⟨ho, rfl, rfl⟩ |
    ⟨ho, rfl, rfl⟩ | ⟨ho, rfl, rfl⟩ | ⟨ho, rfl, rfl⟩)
  · simp [esStep, ho, hl]
  · simp [esStep, ho, hl]
  all_goals simp [esStep, ho]

theorem envEvent_es_of_some {p : Params} {tr : EsTransition} {es es' : Es} (h : esStep tr es = some es') :
    envEvent p (.es tr) es = es' := by
  simp only [envEvent, h, Option.getD_some]

theorem envEvent_es_of_none {p : Params} {tr : EsTransition} {es : Es} (h : esStep tr es = none) :
    envEvent p (.es tr) es = es := by
  simp only [envEvent, h, Option.getD_none]

/-- A step that stops leaves the source's turns before and after it, and nothing else. -/
theorem stateAfter_of_stop {s : State} (h : ∀ t, step s ≠ .next t) : stateAfter s = esPhase (esPhase s) := by
  rcases stateAfter_cases s with hnext | ⟨-, hs⟩
  · exact absurd hnext (h _)
  · exact hs

/-- Settles O41: each clause is an equation of `esPhase`, `runEvents` or `envEvent`, and a stopped step leaves two turns
of the source (`stateAfter_of_stop`). -/
theorem sourceTurnTouchesOnlyTheSource : Obligations.SourceTurnTouchesOnlyTheSource := by
  refine ⟨fun s => ⟨rfl, rfl, rfl, fun h => ?_, fun l rest h => ⟨?_, ?_⟩⟩, fun p es => ⟨rfl, fun ev l => rfl⟩,
    fun p tr es => ⟨fun es' => envEvent_es_of_some, envEvent_es_of_none⟩, fun s hstop => ?_,
    fun p d es => ⟨fun h => ?_, fun h => ?_⟩⟩
  · simp only [esPhase_es, nextEvents, h]
  · rw [esPhase_es, nextEvents_of_script h]
  · rw [esPhase_env, consumeEvents_esScript, h, List.drop_one, List.tail_cons]
  · rw [stateAfter_of_stop hstop]
    exact ⟨rfl, rfl⟩
  · simp [envEvent, h]
  · simp [envEvent, h]

/-! The alarm latch. -/

/-- A latched alarm: the source is in `BIST`, or `DEAD`. -/
structure AlarmHeld (es : Es) : Prop where
  latch : es.bistLatched = true
  opst : es.opst = .bist ∨ es.opst = .dead

/-- Only to `DEAD` does a transition lead from a latched `BIST`. -/
theorem esStep_alarmHeld {tr : EsTransition} {es es' : Es} (h : AlarmHeld es) (hstep : esStep tr es = some es') :
    AlarmHeld es' := by
  obtain ⟨hl, ho⟩ := h
  rcases esStep_cases hstep with ⟨-, hl', -⟩ | ⟨-, hl', -⟩ | ⟨-, -, rfl⟩ | ⟨hw, -⟩ | ⟨hw, -⟩ | ⟨hw, -⟩ | ⟨hw, -⟩ |
    ⟨hw, -⟩
  · simp [hl] at hl'
  · simp [hl] at hl'
  · exact ⟨hl, .inr rfl⟩
  all_goals simp [hw] at ho

theorem runEvents_alarmHeld {p : Params} (l : List EnvEvent) {es : Es} (hp : p.esShared = false) (h : AlarmHeld es) :
    AlarmHeld (runEvents p l es) := by
  refine runEvents_induction p (fun _ _ _ => esStep_alarmHeld) (fun es d hshared => ?_) l es h
  rw [hp] at hshared
  cases hshared

/-- Outside `BIST` a poll leaves the latch. -/
theorem pollEs_bistLatched {es : Es} (d : PollDraw) (h : es.opst ≠ .bist) :
    (pollEs es d).bistLatched = es.bistLatched := by
  cases ho : es.opst with
  | bist => exact absurd ho h
  | wait => rw [pollEs_of_wait d ho]
  | dead => rw [pollEs_of_dead d ho]
  | es16 =>
    cases hd : d.toWait with
    | true => rw [pollEs_wipe_to_wait ho hd]
    | false => rw [pollEs_wipe_to_fresh ho hd]

/-- Settles O42: entering `BIST` sets the latch, the source's transitions hold it, and of the instructions only a poll
reaches the source, which in another status would leave the latch. -/
theorem alarmIsHeldUntilPolled : Obligations.AlarmIsHeldUntilPolled := by
  refine ⟨fun es es' h => ?_, fun p l es hp ho hl => ?_, fun i s t hexec hl hl' => ?_, fun i s hc hw hm ho => ?_,
    fun p => rfl⟩
  · rcases esStep_cases h with ⟨-, -, ⟨⟩, -⟩ | ⟨-, -, w, ⟨⟩, -⟩ | ⟨-, ⟨⟩, -⟩ | ⟨-, w, ⟨⟩, -⟩ | ⟨-, -, rfl⟩ |
      ⟨-, ⟨⟩, -⟩ | ⟨-, -, rfl⟩ | ⟨-, ⟨⟩, -⟩ <;> rfl
  · obtain ⟨hlatch, hopst⟩ := runEvents_alarmHeld l hp ⟨hl, .inl ho⟩
    exact ⟨hlatch, hopst⟩
  · have hes : t.es ≠ s.es := fun h => by rw [h, hl] at hl'; cases hl'
    obtain ⟨hc, hw, hm⟩ := onlyPermittedPollsTouchTheSource i s t hexec (.inl hes)
    refine ⟨hc, hw, hm, ?_⟩
    rw [seedPoll_word, statusOfWord_seedWord]
    by_contra ho
    have hpoll := (exec_next_es hexec).resolve_left hes
    rw [hpoll, pollEs_bistLatched _ ho, hl] at hl'
    cases hl'
  · exact ⟨_, exec_permitted_poll hc hw hm, by rw [completePoll_es, pollEs_of_bist _ ho]⟩

end Sys2Proof.Machine

/-! The program text and the fetch: what is written is read back, and where a fetch stops (00_scope.md R7; 20_memory.md
R52, R53; 70_reset_and_hazards.md R215). -/

namespace Sys2Proof.Machine

open Sys2Proof.Safety

/-! Bytes. -/

/-- A listed byte is found at its own address, and the rest is searched at every other. -/
theorem readByte_cons (c : Host.Cell) (m : Memory) (a : Nat) :
    readByte (c :: m) a = if a = c.1 then some c.2 else readByte m a := by
  obtain ⟨k, b⟩ := c
  by_cases h : a = k
  · simp [readByte, h]
  · simp [readByte, List.lookup_cons, h, beq_false_of_ne h]

/-- The order of the list plays no part. -/
theorem readByte_writeByte (m : Memory) (addr a : Nat) (b : Byte) :
    readByte (writeByte addr b m) a = if a = addr then some b else readByte m a := by
  induction m with
  | nil => simp only [writeByte, readByte_cons]
  | cons c rest ih =>
    obtain ⟨k, x⟩ := c
    rcases lt_trichotomy addr k with hlt | rfl | hgt
    · simp only [writeByte, if_pos hlt, readByte_cons]
    · simp only [writeByte, lt_irrefl, if_false, if_true, readByte_cons]
      split <;> rfl
    · simp only [writeByte, if_neg hgt.not_gt, if_neg hgt.ne', readByte_cons, ih]
      by_cases ha : a = k
      · rw [if_pos ha, if_pos ha, if_neg (by omega)]
      · rw [if_neg ha, if_neg ha]

/-- Settles O51: `readByte_writeByte`, for lists in canonical form or not. -/
theorem memoryReadAfterWrite : Obligations.MemoryReadAfterWrite :=
  fun m addr a b _ => readByte_writeByte m addr a b

/-! Several bytes. -/

theorem readByte_writeBytes_of_lt (bs : List Byte) (m : Memory) {addr a : Nat} (h : a < addr) :
    readByte (writeBytes addr bs m) a = readByte m a := by
  induction bs generalizing addr m with
  | nil => rfl
  | cons b bs ih => rw [writeBytes, ih _ (Nat.lt_succ_of_lt h), readByte_writeByte, if_neg h.ne]

theorem readBytes_succ (m : Memory) (addr n : Nat) :
    readBytes m addr (n + 1) = (readByte m addr).bind fun b => (readBytes m (addr + 1) n).map (b :: ·) := by
  rw [readBytes]
  cases readByte m addr <;> cases readBytes m (addr + 1) n <;> rfl

theorem readBytes_writeBytes (bs : List Byte) (m : Memory) (addr : Nat) :
    readBytes (writeBytes addr bs m) addr bs.length = some bs := by
  induction bs generalizing addr m with
  | nil => rfl
  | cons b bs ih =>
    rw [List.length_cons, readBytes_succ, writeBytes, ih, readByte_writeBytes_of_lt _ _ (Nat.lt_succ_self addr),
      readByte_writeByte, if_pos rfl]
    rfl

/-- One byte without a value leaves the four without one. -/
theorem readBytes_four_eq_none {m : Memory} {addr : Nat}
    (h : readByte m addr = none ∨ readByte m (addr + 1) = none ∨ readByte m (addr + 2) = none ∨
      readByte m (addr + 3) = none) : readBytes m addr 4 = none := by
  simp only [readBytes_succ, Option.bind_eq_none_iff, Option.map_eq_none_iff]
  rcases h with h | h | h | h <;> simp [h]

theorem readBytes_four {m : Memory} {addr : Nat} {b0 b1 b2 b3 : Byte} (h0 : readByte m addr = some b0)
    (h1 : readByte m (addr + 1) = some b1) (h2 : readByte m (addr + 2) = some b2)
    (h3 : readByte m (addr + 3) = some b3) : readBytes m addr 4 = some [b0, b1, b2, b3] := by
  simp [readBytes, h0, h1, h2, h3]

/-! The fetch. The source's turn changes nothing that it reads. -/

@[simp] theorem fetch_esPhase (s : State) : fetch (esPhase s) = fetch s := rfl

theorem fetch_of_misaligned {s : State} (h : s.pc.toNat % 4 ≠ 0) : fetch s = .refused (.pcMisaligned s.pc) :=
  if_pos h

theorem fetch_of_outside {s : State} (ha : s.pc.toNat % 4 = 0) (h : 2 ^ s.params.xlen.bits ≤ s.pc.toNat) :
    fetch s = .fault (.fetchOutsideSpace s.pc.toNat) := by
  rw [fetch, if_neg (not_not_intro ha), if_pos h]

section
variable {s : State} (ha : s.pc.toNat % 4 = 0) (hp : s.pc.toNat < 2 ^ s.params.xlen.bits)
include ha hp

theorem fetch_of_bytes {bs : List Byte} (h : readBytes s.mem s.pc.toNat 4 = some bs) : fetch s = .next bs := by
  simp only [fetch, if_neg (not_not_intro ha), if_neg hp.not_ge, h]

theorem fetch_of_no_bytes (h : readBytes s.mem s.pc.toNat 4 = none) :
    fetch s = .fault (fetchStop s.mem s.pc s.params.xlen) := by
  simp only [fetch, if_neg (not_not_intro ha), if_neg hp.not_ge, h]

end

/-- Only at the end of the text is a missing byte the end of the run (R215). -/
theorem fetchStop_of_textEnd {m : Memory} {pc : Word} {x : Xlen} {a : Nat} (he : textEnd m = some a)
    (ha : a % 2 ^ x.bits = pc.toNat) (h : readByte m pc.toNat = none) : fetchStop m pc x = .completed pc := by
  simp only [fetchStop, he, ha, h, and_self, if_true]

theorem fetchStop_of_not_textEnd {m : Memory} {pc : Word} {x : Xlen}
    (h : ∀ a, textEnd m = some a → a % 2 ^ x.bits = pc.toNat → readByte m pc.toNat ≠ none) :
    fetchStop m pc x = .fetchUnwritten pc.toNat := by
  cases he : textEnd m with
  | none => simp only [fetchStop, he]
  | some a =>
    have hn : ¬ (a % 2 ^ x.bits = pc.toNat ∧ readByte m pc.toNat = none) := fun ⟨ha, hb⟩ => h a he ha hb
    simp only [fetchStop, he, if_neg hn]

/-! Steps. -/

theorem step_of_fetch_fault {s : State} {f : Fault} (h : fetch s = .fault f) : step s = .fault f := by
  simp only [step, hartStep, fetch_esPhase, h, closingTurn]

theorem step_of_fetch_refused {s : State} {r : Refusal} (h : fetch s = .refused r) : step s = .refused r := by
  simp only [step, hartStep, fetch_esPhase, h, closingTurn]

/-- Settles O50: the four clauses are the four ways a fetch stops, a missing byte being the end of the run or a fault
by `fetchStop`. -/
theorem stepStopsWithoutAnInstruction : Obligations.StepStopsWithoutAnInstruction := by
  intro s
  refine ⟨fun h => step_of_fetch_refused (fetch_of_misaligned h),
    fun ha hp hb => ⟨fun a he hend => ?_, fun hend => ?_⟩,
    fun ha hp => step_of_fetch_fault (fetch_of_outside ha hp), fun ha hp b hb hrest => ?_⟩
  · rw [step_of_fetch_fault (fetch_of_no_bytes ha hp (readBytes_four_eq_none (.inl hb))),
      fetchStop_of_textEnd he hend hb]
  · rw [step_of_fetch_fault (fetch_of_no_bytes ha hp (readBytes_four_eq_none (.inl hb))),
      fetchStop_of_not_textEnd fun a he h => absurd h (hend a he)]
  · rw [step_of_fetch_fault (fetch_of_no_bytes ha hp (readBytes_four_eq_none (.inr hrest))),
      fetchStop_of_not_textEnd fun _ _ _ => by simp [hb]]

/-- Settles O48: the four bytes are what the step fetches, and `closingTurn` keeps the kind of outcome. -/
theorem stepRunsTheDecodedInstruction : Obligations.StepRunsTheDecodedInstruction := by
  intro s b0 b1 b2 b3 i ha hp h0 h1 h2 h3 hdecode
  have hstep : step s = closingTurn (exec i (esPhase s)) :=
    step_of_fetch (fetch_of_bytes ha hp (readBytes_four h0 h1 h2 h3)) hdecode
  refine ⟨fun t h => ?_, fun r h => ?_, fun r h => ?_⟩ <;> rw [h] at hstep
  · exact ⟨hstep, stateAfter_of_next hstep⟩
  · exact ⟨hstep, stateAfter_of_stop fun t ht => by rw [hstep] at ht; cases ht⟩
  · exact ⟨hstep, stateAfter_of_stop fun t ht => by rw [hstep] at ht; cases ht⟩

/-- Settles O49: the four bytes placed at `pc` are read back there, and decoding inverts encoding. -/
theorem placedInstructionRunsNext : Obligations.PlacedInstructionRunsNext := by
  intro s i hwf ha hp
  have hmem : (s.withFetchWord 32 (encode i).toNat).mem = writeBytes s.pc.toNat (bytesOfWord (encode i)) s.mem := by
    rw [withFetchWord_mem, tableBytes_toNat]
  have hread : readBytes (s.withFetchWord 32 (encode i).toNat).mem s.pc.toNat 4 = some (bytesOfWord (encode i)) := by
    rw [hmem]; exact readBytes_writeBytes _ _ _
  have hdecode := decodeInvertsEncode i [] hwf
  rw [List.append_nil] at hdecode
  exact step_of_fetch (fetch_of_bytes (s := s.withFetchWord 32 (encode i).toNat) ha hp hread) hdecode

end Sys2Proof.Machine
